-- ==== Sys2Proof/Syntax.lean ====
section
/-! DEFINITION. The command set LCB-1: one constructor per row of spec/opcode_table.json (spec/30_encoding.md R61).
A command word holds no operand bits: an operand stands on an operand port when the command is issued (R60, R63), so
the constructors have no fields. -/

namespace Sys2Proof

/-- The eight commands of LCB-1 (R61). -/
inductive Instr where
  /-- `ENC.U32`, 0x10: append an unsigned 32-bit integer (R102). -/
  | encU32
  /-- `ENC.I32`, 0x11: append a signed 32-bit integer (R105). -/
  | encI32
  /-- `ENC.PSTR`, 0x12: append a length-prefixed string (R152). -/
  | encPstr
  /-- `ENC.VIEW`, 0x13: expose the bytes written so far (R106). -/
  | encView
  /-- `DEC.LOAD`, 0x20: construct the decoder over a new source (R120). -/
  | decLoad
  /-- `DEC.U32`, 0x21: read an unsigned 32-bit integer (R123). -/
  | decU32
  /-- `DEC.I32`, 0x22: read a signed 32-bit integer (R126). -/
  | decI32
  /-- `DEC.PSTR`, 0x23: read a length-prefixed string (R153). -/
  | decPstr
  deriving DecidableEq, Repr

end Sys2Proof
end

