-- ==== Sys2Proof/Word.lean ====
section
/-! DEFINITION. The byte and word types of the block (spec/00_scope.md R6). -/

namespace Sys2Proof

/-- A byte: bits 7 (most significant) down to 0 (R6). -/
abbrev Byte := BitVec 8

/-- The 32-bit word of `RESP_WORD` (R28, R64). -/
abbrev Word := BitVec 32

/-- A text: a list of numbers, each meant as a Unicode scalar value (R67). Membership of the domain is a check
(`Sys2Proof.Machine.textAdmitted`), because R67 says what the model does with a text outside it. -/
abbrev Text := List Nat

end Sys2Proof
end

