-- ==== Sys2Proof/Decode.lean ====
section
/-! DEFINITION. The command word format CMD8 and the opcode map (spec/30_encoding.md R60 to R62): the decoder, total
on all 256 words and rejecting by name, and after it the encoder, written from the same two tables. -/

namespace Sys2Proof

/-- Why a word is no command: it is one of the 248 illegal words of R62. The block answers every one of them alike
(`ILLEGAL_COMMAND`); the names say only which field is wrong. -/
inductive DecodeError where
  /-- `CMD[7:4]` is neither 0x1 (ENC) nor 0x2 (DEC) (R60). -/
  | illegalUnit
  /-- The unit is ENC and `CMD[3:0]` names none of its operations. -/
  | illegalEncFunc
  /-- The unit is DEC and `CMD[3:0]` names none of its operations. -/
  | illegalDecFunc
  deriving DecidableEq, Repr

/-- `CMD[7:4]`, the unit field (R60). -/
def unitField (w : Byte) : BitVec 4 := w.extractLsb' 4 4

/-- `CMD[3:0]`, the operation within the unit (R60). -/
def funcField (w : Byte) : BitVec 4 := w.extractLsb' 0 4

/-- The command a word stands for (R60, R61); every other word is refused (R62). -/
def decode (w : Byte) : Except DecodeError Instr :=
  match (unitField w).toNat, (funcField w).toNat with
  | 1, 0 => .ok .encU32
  | 1, 1 => .ok .encI32
  | 1, 2 => .ok .encPstr
  | 1, 3 => .ok .encView
  | 1, _ => .error .illegalEncFunc
  | 2, 0 => .ok .decLoad
  | 2, 1 => .ok .decU32
  | 2, 2 => .ok .decI32
  | 2, 3 => .ok .decPstr
  | 2, _ => .error .illegalDecFunc
  | _, _ => .error .illegalUnit

/-- The unit nibble of a command (R60: ENC is 0x1, DEC is 0x2). -/
def unitCode : Instr → BitVec 4
  | .encU32 | .encI32 | .encPstr | .encView => 0x1#4
  | .decLoad | .decU32 | .decI32 | .decPstr => 0x2#4

/-- The function nibble of a command (R61's last hex digit). -/
def funcCode : Instr → BitVec 4
  | .encU32 => 0x0#4
  | .encI32 => 0x1#4
  | .encPstr => 0x2#4
  | .encView => 0x3#4
  | .decLoad => 0x0#4
  | .decU32 => 0x1#4
  | .decI32 => 0x2#4
  | .decPstr => 0x3#4

/-- The command word of a command: unit in bits 7:4, function in bits 3:0 (R60). -/
def encode (i : Instr) : Byte := unitCode i ++ funcCode i

/-- The opcode table's word, as the host numbers its bits: a command is ONE 8-bit word, so a word of more or fewer
than eight bits, or a number that does not fit them, is no command (log entry 10). -/
def decodeTableWord (nbits w : Nat) : Option Instr :=
  if nbits = 8 ∧ w < 2 ^ 8 then
    match decode (BitVec.ofNat 8 w) with
    | .ok i => some i
    | .error _ => none
  else none

end Sys2Proof
end

