-- ==== Sys2Proof/Machine/Interface.lean ====
section
/-! DEFINITION. The types of the block's interface: error kinds, decoder state, operand ports, results, status
outputs, and what the host can do to the block between two commands (spec/30_encoding.md R60 to R65; 10_state.md
R27, R28, R31; 60_exceptions.md R200; 70_reset_and_hazards.md R230). -/

namespace Sys2Proof.Machine

/-- The error kinds of R200: a closed enumeration. -/
inductive ErrKind where
  | notAnInteger
  | outOfRange
  | incompleteNumber
  | invalidUtf8
  | illegalCommand
  | capacityExceeded
  deriving DecidableEq, Repr

/-- What `RESP_STATUS` holds: `OK` or an error kind. The reserved codes 7 to 15 are never produced, so the type lacks
them (93, "Reserved status codes"). -/
inductive Status where
  | ok
  | error (k : ErrKind)
  deriving DecidableEq, Repr

/-- The three kinds a decoder read can fail with, so the only `K` of `FAILED(K)` (R27). -/
inductive ReadErr where
  | outOfRange
  | incompleteNumber
  | invalidUtf8
  deriving DecidableEq, Repr

/-- `DEC_STATE` (R27). -/
inductive DecState where
  | ok
  | failed (k : ReadErr)
  deriving DecidableEq, Repr

/-- The domain of `NUM_IN` (R65): a rational number, `NaN`, or an infinity. -/
inductive NumOperand where
  | finite (q : Rat)
  | nan
  | posInf
  | negInf
  deriving DecidableEq, Repr

/-- What stands on the three operand ports when a command is issued (R63). -/
structure Ports where
  /-- `NUM_IN`, read by ENC.U32 and ENC.I32. -/
  numIn : NumOperand
  /-- `TEXT_IN`, read by ENC.PSTR. -/
  textIn : Text
  /-- `BYTES_IN`, read by DEC.LOAD. -/
  bytesIn : List Byte
  deriving DecidableEq, Repr

/-- The result a command puts on its result port (R64): none, or one of the three ports' contents. -/
inductive Result where
  | none
  | word (w : Word)
  | text (t : Text)
  | bytes (bs : List Byte)
  deriving DecidableEq, Repr

/-- The three reset inputs (R230). -/
inductive ResetInput where
  | rstEnc
  | rstDec
  | rst
  deriving DecidableEq, Repr

/-- The named status outputs (R31). -/
inductive Output where
  | encLen
  | decLen
  | decPos
  | decState
  | respStatus
  | respWord
  | respText
  | respBytes
  deriving DecidableEq, Repr

/-- What the host reads on a status output (R31). -/
inductive OutputValue where
  | count (n : Nat)
  | decState (d : DecState)
  /-- The 4-bit code of R200. -/
  | status (c : BitVec 4)
  | word (w : Word)
  | text (t : Text)
  | bytes (bs : List Byte)
  deriving DecidableEq, Repr

/-- One act of the host. They happen one at a time, each between two commands (R60, R233, R31, R236). -/
inductive HostInput where
  /-- A command word on `CMD`, with what stands on the operand ports (R60, R63). -/
  | issue (cmd : Byte) (ports : Ports)
  /-- A reset input (R230, R233). -/
  | reset (r : ResetInput)
  /-- A read of a status output (R31). -/
  | read (o : Output)
  deriving DecidableEq, Repr

end Sys2Proof.Machine
end

