-- ==== Sys2Proof/Machine/Flags.lean ====
section
/-! DEFINITION. The block has no condition flags (spec/10_state.md R30). What takes their place is the status code of
each command: its numbering (60_exceptions.md R200), and the kind each failed read reports (R204, R210). -/

namespace Sys2Proof.Machine

/-- The code of an error kind (R200). -/
def errCode : ErrKind → BitVec 4
  | .notAnInteger => 1#4
  | .outOfRange => 2#4
  | .incompleteNumber => 3#4
  | .invalidUtf8 => 4#4
  | .illegalCommand => 5#4
  | .capacityExceeded => 6#4

/-- The 4-bit code that `RESP_STATUS` shows (R200). -/
def statusCode : Status → BitVec 4
  | .ok => 0#4
  | .error k => errCode k

/-- The error kind that a failed read reports (R27, R204). -/
def readErrKind : ReadErr → ErrKind
  | .outOfRange => .outOfRange
  | .incompleteNumber => .incompleteNumber
  | .invalidUtf8 => .invalidUtf8

end Sys2Proof.Machine
end

