-- ==== Sys2Proof/Config.lean ====
section
/-! DEFINITION. The implementation parameters that the spec leaves OPEN (spec/00_scope.md R4, R5; 92 D14). They are
arguments of the model: `Machine.State` carries one `Config`, no step changes it, and every statement about every
state is a statement about every configuration. Log entry 2. -/

namespace Sys2Proof

/-- A storage bound: a natural number of bytes, or `unbounded` (R4). -/
inductive Capacity where
  /-- The default of R4: appends and loads never fail for lack of room (R5). -/
  | unbounded
  /-- A realisation with room for `n` bytes; adds the `CAPACITY_EXCEEDED` outcome (R5, R201). -/
  | bounded (n : Nat)
  deriving DecidableEq, Repr

/-- The two OPEN parameters of R4. -/
structure Config where
  /-- `ENC_MAX_BYTES`. -/
  encMaxBytes : Capacity
  /-- `DEC_MAX_BYTES`. -/
  decMaxBytes : Capacity
  deriving DecidableEq, Repr

/-- R4's defaults: both `unbounded`, the behaviour the source describes (R5). -/
def Config.default : Config := { encMaxBytes := .unbounded, decMaxBytes := .unbounded }

end Sys2Proof
end

