-- ==== Sys2Proof/Machine/Operands.lean ====
section
/-! DEFINITION. The operand domains and the checks an operand passes before anything is computed from it
(spec/30_encoding.md R65 to R67; 60_exceptions.md R207), and the capacity test (00_scope.md R4, R5). -/

namespace Sys2Proof.Machine

/-- `checkInt` of R66: integrality first, then range (R207, 92 D8). A rational is an integer exactly when its
denominator in lowest terms is 1. -/
def checkInt (x : NumOperand) (lo hi : Int) : Except ErrKind Int :=
  match x with
  | .nan => .error .notAnInteger
  | .posInf => .error .notAnInteger
  | .negInf => .error .notAnInteger
  | .finite q =>
    if q.den ≠ 1 then .error .notAnInteger
    else if q.num < lo ∨ hi < q.num then .error .outOfRange
    else .ok q.num

/-- `checkU32` of R66: the range [0, 2^32 - 1]. -/
def checkU32 (x : NumOperand) : Except ErrKind Int := checkInt x 0 (2 ^ 32 - 1)

/-- `checkI32` of R66: the range [-2^31, 2^31 - 1]. -/
def checkI32 (x : NumOperand) : Except ErrKind Int := checkInt x (-2 ^ 31) (2 ^ 31 - 1)

/-- Unicode scalar values: [0, 0xD7FF] and [0xE000, 0x10FFFF] (R67). -/
def isScalar (c : Nat) : Bool := c ≤ 0xD7FF || (0xE000 ≤ c && c ≤ 0x10FFFF)

/-- A text in `TEXT_IN`'s domain (R67). -/
def textAdmitted (t : Text) : Bool := t.all isScalar

/-- `MAX_STRING_BYTES` (R4): a string's length is itself an unsigned varint. -/
def maxStringBytes : Nat := 2 ^ 32 - 1

/-- `c` is a number and `n` bytes would pass it (the capacity test of R102, R105, R120 and R152). -/
def overCapacity (c : Capacity) (n : Nat) : Bool :=
  match c with
  | .unbounded => false
  | .bounded m => m < n

/-- The operand of a realisation that carries `NUM_IN` as a binary64 word (R65): a finite value maps to its exact
rational, and a negative zero to `Finite(0)`. The layout of binary64 (sign bit 63, exponent 62:52 with bias 1023,
fraction 51:0) is general knowledge. PRESUMED, log entry 9. -/
def numOfBinary64 (w : BitVec 64) : NumOperand :=
  let e := (w.extractLsb' 52 11).toNat
  let f := (w.extractLsb' 0 52).toNat
  let sign : Int := if w.getLsbD 63 then -1 else 1
  if e = 2047 then
    if f ≠ 0 then .nan else if w.getLsbD 63 then .negInf else .posInf
  else
    let m : Nat := if e = 0 then f else 2 ^ 52 + f
    let x : Nat := if e = 0 then 1 else e
    -- the value is sign * m * 2^(x - 1075)
    if m = 0 then .finite 0
    else if 1075 ≤ x then .finite ((sign * (m * 2 ^ (x - 1075) : Nat) : Int) : Rat)
    else .finite (mkRat (sign * m) (2 ^ (1075 - x)))

end Sys2Proof.Machine
end

