-- ==== Sys2Proof/Machine/Memory.lean ====
section
/-! DEFINITION. The block's two address spaces (spec/20_memory.md R40, R51): plain byte lists indexed from 0. The
spec gives each as a byte list with no gaps (R21, R24), so the model holds it as one: the address of a byte is its
index, and equal memories are equal lists. `memCells` is the same memory as a list of (address, byte) pairs. An
address that is not listed has no value (R41, R42), and nothing reads it. Log entry 4. -/

namespace Sys2Proof.Machine

/-- One address space: the bytes at offsets 0, 1, 2, … (R40). -/
abbrev Memory := List Byte

/-- The byte at offset `a`; none at or above the length (R7 `SrcRead`; R41, R42). -/
def memRead (m : Memory) (a : Nat) : Option Byte := m[a]?

/-- The bytes at offsets `[lo, hi)`: the notation `l[lo..hi)` of R6. -/
def memSlice (m : Memory) (lo hi : Nat) : List Byte := (m.drop lo).take (hi - lo)

/-- The memory with `bs` written just past its end (R7 `BufAppend`, R41). -/
def memAppend (m : Memory) (bs : List Byte) : Memory := m ++ bs

/-- The memory as (address, byte) pairs. -/
def memCells (m : Memory) : List Host.Cell := m.zipIdx.map fun c => (c.2, c.1)

/-- The canonical form of a list of pairs for a space of R40: the addresses are 0, 1, 2, … in rising order with none
left out. An unlisted address reads as no value, so no entry can equal what one reads as. -/
def Memory.wf (cs : List Host.Cell) : Bool := cs.map Prod.fst == List.range cs.length

end Sys2Proof.Machine
end

