-- ==== Sys2Proof/Machine/State.lean ====
section
/-! DEFINITION. The state: every element of spec/10_state.md R20, the configuration (R4), what stands on the operand
ports (R63), and the host's acts still to come, which are the host's own and no state of the block (R29). Plain data
throughout. -/

namespace Sys2Proof.Machine

/-- How a step can stop with a fault. The block itself has no fault: every error of a command is a response (R200). -/
inductive Fault where
  /-- Raised by a host read (`HostInput.read`) of a result port that holds no value: R28, "reading it is a host
  error. A model makes such a read a fault". Safe: the spec asks for the stop, and no value is invented. -/
  | noValue (o : Output)
  deriving DecidableEq, Repr

/-- How a step can be refused. -/
inductive Refusal where
  /-- A command without a meaning; no arm of `exec` raises it. Safe. -/
  | notModelled (mnemonic : String)
  /-- Raised by ENC.PSTR when `TEXT_IN` holds a number that is no Unicode scalar value: R67, "A model refuses such a
  command: it has no meaning, and no outcome is stated for it". Safe: it errs toward unprovable (92 D6). -/
  | textOutsideDomain
  deriving DecidableEq, Repr

/-- The block's architectural state (R20), its configuration, and its inputs. -/
structure State where
  /-- `ENC_BUF` (R21). -/
  encBuf : Memory
  /-- `ENC_LEN` (R22): always the length of `encBuf`, an invariant every step keeps (`State.Inv`). -/
  encLen : Nat
  /-- `DEC_SRC` (R24). -/
  decSrc : Memory
  /-- `DEC_LEN` (R25): always the length of `decSrc`, an invariant every step keeps. -/
  decLen : Nat
  /-- `DEC_POS` (R26). -/
  decPos : Nat
  /-- `DEC_STATE` (R27). -/
  decState : DecState
  /-- `RESP_STATUS` (R28); its 4-bit code is `statusCode`. -/
  respStatus : Status
  /-- `RESP_WORD` (R28); `none` is the spec's "no value". -/
  respWord : Option Word
  /-- `RESP_TEXT` (R28). -/
  respText : Option Text
  /-- `RESP_BYTES` (R28). -/
  respBytes : Option (List Byte)
  /-- `ENC_MAX_BYTES` and `DEC_MAX_BYTES` (R4), fixed for the machine. -/
  cfg : Config
  /-- What stands on the operand ports (R63): an input, set by each issued command. -/
  ports : Ports
  /-- The host's acts still to come, next one first: the host's program (R29), no element of the block. -/
  hostInputs : List HostInput
  deriving DecidableEq, Repr

/-- What stands on the operand ports before the host has driven them. DESIGN CHOICE, log entry 3: the ports are inputs
and the spec gives them no value; every issued command replaces all three. -/
def Ports.idle : Ports := { numIn := .finite 0, textIn := [], bytesIn := [] }

/-- The state after `rst` (R32, R233) of a block with configuration `c`, with no act of the host to come. -/
def State.resetWith (c : Config) : State where
  encBuf := []
  encLen := 0
  decSrc := []
  decLen := 0
  decPos := 0
  decState := .ok
  respStatus := .ok
  respWord := none
  respText := none
  respBytes := none
  cfg := c
  ports := Ports.idle
  hostInputs := []

/-- The machine right after reset (R32, R233), with R4's default configuration. -/
def State.reset : State := State.resetWith Config.default

end Sys2Proof.Machine
end

