-- ==== Sys2Proof/Machine/Ops.lean ====
section
/-! DEFINITION. The operations every command is made of: the response (spec/00_scope.md R7 `respond`), raising an error
(R203 to R206), the encoder's append (R7 `BufAppend`), the decoder's read under the sticky failure (R210), the resets
(70 R231, R232) and the host's reading of a status output (R28, R31). The block has no trap entry and no return from
one (R213, R211): an error is the response of the command that raised it. -/

namespace Sys2Proof.Machine

/-- The word a result puts on `RESP_WORD`. -/
def resultWord : Result → Option Word
  | .word w => some w
  | .none | .text _ | .bytes _ => Option.none

/-- The text a result puts on `RESP_TEXT`. -/
def resultText : Result → Option Text
  | .text t => some t
  | .none | .word _ | .bytes _ => Option.none

/-- The bytes a result puts on `RESP_BYTES`. -/
def resultBytes : Result → Option (List Byte)
  | .bytes bs => some bs
  | .none | .word _ | .text _ => Option.none

/-- `respond(status, result)` (R7, R28): the status, the result on its port, and no value on every other port. -/
def respond (st : Status) (r : Result) (s : State) : State :=
  { s with respStatus := st, respWord := resultWord r, respText := resultText r, respBytes := resultBytes r }

/-- `raise K` where the error changes no unit state (R203, R205, R206; a sticky read's answer, R210). -/
def raise (k : ErrKind) (s : State) : State := respond (.error k) .none s

/-- `raise K` in a decoder read (R204): `DEC_STATE` becomes `FAILED(K)`, and the cursor and the source stay. -/
def raiseRead (k : ReadErr) (s : State) : State := raise (readErrKind k) { s with decState := .failed k }

/-- What an illegal command word does (R62, R205). -/
def illegalCommand (s : State) : State := raise .illegalCommand s

/-- `BufAppend` (R7): the bytes go at the end of `ENC_BUF`, and `ENC_LEN` moves past them (R41). -/
def bufAppend (bs : List Byte) (s : State) : State :=
  { s with encBuf := memAppend s.encBuf bs, encLen := s.encLen + bs.length }

/-- The common end of the three append commands (R102, R105, R152): an error of the operand is raised; then the
capacity test; then all the bytes are written at once. -/
def appendOrRaise (r : Except ErrKind (List Byte)) (s : State) : State :=
  match r with
  | .error k => raise k s
  | .ok bs =>
    if overCapacity s.cfg.encMaxBytes (s.encLen + bs.length) then raise .capacityExceeded s
    else respond .ok .none (bufAppend bs s)

/-- The common frame of the three read commands (R123, R126, R153): a failed decoder answers its kind again and
changes nothing else (R210); otherwise the read's error is raised, or the cursor moves past the bytes consumed and the
result is presented. -/
def readOrRaise (r : Except ReadErr (Nat × Result)) (s : State) : State :=
  match s.decState with
  | .failed k => raise (readErrKind k) s
  | .ok =>
    match r with
    | .error k => raiseRead k s
    | .ok (n, res) => respond .ok res { s with decPos := s.decPos + n }

/-- Encoder reset (R231). -/
def resetEnc (s : State) : State := respond .ok .none { s with encBuf := [], encLen := 0 }

/-- Decoder reset (R232). -/
def resetDec (s : State) : State :=
  respond .ok .none { s with decSrc := [], decLen := 0, decPos := 0, decState := .ok }

/-- What each reset input does (R230): `rst` resets both units. -/
def applyReset (r : ResetInput) (s : State) : State :=
  match r with
  | .rstEnc => resetEnc s
  | .rstDec => resetDec s
  | .rst => resetDec (resetEnc s)

/-- The value on a status output (R31); a result port with no value has none to give (R28). -/
def readOutput (o : Output) (s : State) : Option OutputValue :=
  match o with
  | .encLen => some (.count s.encLen)
  | .decLen => some (.count s.decLen)
  | .decPos => some (.count s.decPos)
  | .decState => some (.decState s.decState)
  | .respStatus => some (.status (statusCode s.respStatus))
  | .respWord => s.respWord.map .word
  | .respText => s.respText.map .text
  | .respBytes => s.respBytes.map .bytes

/-- The signed reading `sext_32(RESP_WORD)` that R64 asks a model to give. -/
def respWordSigned (s : State) : Option Int := s.respWord.map BitVec.toInt

end Sys2Proof.Machine
end

