-- ==== Sys2Proof/Machine/WireFormat.lean ====
section
/-! DEFINITION. The wire format as the spec DESCRIBES it (spec/30_encoding.md R68 to R71), apart from the algorithms that
produce and read it (`Machine/Varint.lean`): the fields of an encoded byte, and what byte lists are an unsigned and a
signed varint of a value. Statements compare the algorithms with these. -/

namespace Sys2Proof.Machine

/-- `b[7]`, the continuation bit C (R6, R68). -/
def continues (b : Byte) : Bool := b.getLsbD 7

/-- `b[6:0]`, the payload P: one group of 7 value bits (R6, R68). -/
def payload (b : Byte) : Nat := (b.extractLsb' 0 7).toNat

/-- `sum over k of (b_k[6:0] << 7k)` (R69): the first byte carries group 0 (R43). Lemma `groupSum_append`
gives each group's weight as R69 writes it. -/
def groupSum : List Byte → Nat
  | [] => 0
  | b :: bs => payload b + 128 * groupSum bs

/-- Every byte before the last has C = 1, and the last has C = 0 (R69). -/
def chained : List Byte → Bool
  | [] => false
  | [b] => !continues b
  | b :: c :: bs => continues b && chained (c :: bs)

/-- `sext_N(a)` (R6): the N-bit pattern `a` read as two's complement. -/
def sext (n a : Nat) : Int := if a.testBit (n - 1) then (a : Int) - 2 ^ n else a

/-- `bs` is an unsigned varint of `v` (R69): 1 to 5 chained bytes whose groups sum to `v`, in [0, 2^32 - 1]. -/
structure UVarint (bs : List Byte) (v : Nat) : Prop where
  chain : chained bs = true
  groups : bs.length ≤ 5
  value : groupSum bs = v
  range : v ≤ 2 ^ 32 - 1

/-- `bs` is a signed varint of `v` (R70): 1 to 5 chained bytes whose `7n`-bit pattern, sign-extended from the last
byte's payload bit 6, is `v`, in [-2^31, 2^31 - 1]. -/
structure SVarint (bs : List Byte) (v : Int) : Prop where
  chain : chained bs = true
  groups : bs.length ≤ 5
  value : sext (7 * bs.length) (groupSum bs) = v
  low : -2 ^ 31 ≤ v
  high : v ≤ 2 ^ 31 - 1

end Sys2Proof.Machine
end

