-- ==== Sys2Proof/Machine/Varint.lean ====
section
/-! DEFINITION. The LEB128 algorithms: `encU32` and `encI32` (spec/40_encoder.md R100, R103), `decU32` and `decI32`
(41_decoder.md R121, R124), each the spec's loop with the five groups of `MAX_GROUPS` (00_scope.md R4) as fuel. -/

namespace Sys2Proof.Machine

/-- `MAX_GROUPS` (R4): 5 bytes per integer. -/
def maxGroups : Nat := 5

/-- The last byte of an integer: the group with C = 0 (R68, R100 `[g]`). -/
def lastByte (g : Nat) : Byte := BitVec.ofNat 8 g

/-- A byte that more bytes follow: the group with C = 1 (R68, R100 `[0x80 | g]`). -/
def moreByte (g : Nat) : Byte := 0x80#8 ||| BitVec.ofNat 8 g

/-- The loop of R100: the test after the shift decides whether the byte just formed is the last (C1 of 90). The loop
runs at most 5 times, because `v < 2^35`. -/
def encU32Loop : Nat → Nat → List Byte
  | 0, _ => []
  | fuel + 1, v =>
    if v / 128 = 0 then [lastByte (v % 128)]
    else moreByte (v % 128) :: encU32Loop fuel (v / 128)

/-- `encU32(v)` (R100). -/
def encU32 (v : Nat) : List Byte := encU32Loop maxGroups v

/-- `g[6]`: the sign bit of a group (R6, R103). -/
def groupSign (g : Nat) : Bool := g.testBit 6

/-- The loop of R103: it stops when what remains is pure sign extension of the group just formed. `/` and `%` on
`Int` with a positive divisor round toward minus infinity and give a non-negative remainder, as R6 asks. -/
def encI32Loop : Nat → Int → List Byte
  | 0, _ => []
  | fuel + 1, v =>
    let g := (v % 128).toNat
    if (v / 128 = 0 ∧ groupSign g = false) ∨ (v / 128 = -1 ∧ groupSign g = true) then [lastByte g]
    else moreByte g :: encI32Loop fuel (v / 128)

/-- `encI32(v)` (R103). -/
def encI32 (v : Int) : List Byte := encI32Loop maxGroups v

/-- The loop of R121 in the state `ReadingGroup(i)` (R127): end of source first, then the fifth-byte test (R208). The
fuel is the number of groups left; there is no `ReadingGroup(5)`, and the fifth-byte test keeps the loop from it. -/
def decU32Loop (src : Memory) (p : Nat) : Nat → Nat → Nat → Except ReadErr (Nat × Nat)
  | 0, _, _ => .error .outOfRange
  | fuel + 1, i, acc =>
    match memRead src (p + i) with
    | none => .error .incompleteNumber
    | some b =>
      if i = 4 ∧ (continues b = true ∨ 0x0F < payload b) then .error .outOfRange
      else if continues b then decU32Loop src p fuel (i + 1) (acc ||| payload b <<< (7 * i))
      else .ok (acc ||| payload b <<< (7 * i), i + 1)

/-- `decU32(src, p)` (R121): the value and the number of bytes consumed. -/
def decU32 (src : Memory) (p : Nat) : Except ReadErr (Nat × Nat) := decU32Loop src p maxGroups 0 0

/-- `b[6:3] = 0b0000` or `b[6:3] = 0b1111`: the fifth payload's bits 34:31 are all equal (R124, R125). -/
def signedWindow (b : Byte) : Bool := b.extractLsb' 3 4 == 0b0000#4 || b.extractLsb' 3 4 == 0b1111#4

/-- The loop of R124 in the state `ReadingGroup(i)` (R127). -/
def decI32Loop (src : Memory) (p : Nat) : Nat → Nat → Nat → Except ReadErr (Int × Nat)
  | 0, _, _ => .error .outOfRange
  | fuel + 1, i, acc =>
    match memRead src (p + i) with
    | none => .error .incompleteNumber
    | some b =>
      if i = 4 ∧ (continues b = true ∨ signedWindow b = false) then .error .outOfRange
      else if continues b then decI32Loop src p fuel (i + 1) (acc ||| payload b <<< (7 * i))
      else .ok (sext (7 * (i + 1)) (acc ||| payload b <<< (7 * i)), i + 1)

/-- `decI32(src, p)` (R124): the value and the number of bytes consumed. -/
def decI32 (src : Memory) (p : Nat) : Except ReadErr (Int × Nat) := decI32Loop src p maxGroups 0 0

end Sys2Proof.Machine
end

