-- ==== Sys2Proof/Machine/Decoder.lean ====
section
/-! DEFINITION. The decoder's load and its integer reads (spec/41_decoder.md). -/

namespace Sys2Proof.Machine

/-- DEC.LOAD (R120): accepted in every `DEC_STATE`, and the only command that clears `FAILED` (R211). -/
def execDecLoad (s : State) : Host.Outcome State Fault Refusal :=
  if overCapacity s.cfg.decMaxBytes s.ports.bytesIn.length then .next (raise .capacityExceeded s)
  else .next (respond .ok .none
    { s with decSrc := s.ports.bytesIn, decLen := s.ports.bytesIn.length, decPos := 0, decState := .ok })

/-- What DEC.U32 reads at offset `p`: the bytes consumed and the word (R121, R123). -/
def readU32 (src : Memory) (p : Nat) : Except ReadErr (Nat × Result) :=
  match decU32 src p with
  | .error k => .error k
  | .ok (v, n) => .ok (n, .word (BitVec.ofNat 32 v))

/-- What DEC.I32 reads at offset `p`: the bytes consumed and the two's-complement word, `v mod 2^32` (R124, R126). -/
def readI32 (src : Memory) (p : Nat) : Except ReadErr (Nat × Result) :=
  match decI32 src p with
  | .error k => .error k
  | .ok (v, n) => .ok (n, .word (BitVec.ofInt 32 v))

/-- DEC.U32 (R123). -/
def execDecU32 (s : State) : Host.Outcome State Fault Refusal :=
  .next (readOrRaise (readU32 s.decSrc s.decPos) s)

/-- DEC.I32 (R126). -/
def execDecI32 (s : State) : Host.Outcome State Fault Refusal :=
  .next (readOrRaise (readI32 s.decSrc s.decPos) s)

end Sys2Proof.Machine
end

