-- ==== Sys2Proof/Machine/Encoder.lean ====
section
/-! DEFINITION. The encoder's integer appends and its view (spec/40_encoder.md). -/

namespace Sys2Proof.Machine

/-- The bytes ENC.U32 appends for an operand, or the error of its check (R102: `checkU32`, then `encU32`). -/
def bytesOfU32 (x : NumOperand) : Except ErrKind (List Byte) :=
  match checkU32 x with
  | .error k => .error k
  | .ok v => .ok (encU32 v.toNat)

/-- The bytes ENC.I32 appends for an operand, or the error of its check (R105: `checkI32`, then `encI32`). -/
def bytesOfI32 (x : NumOperand) : Except ErrKind (List Byte) :=
  match checkI32 x with
  | .error k => .error k
  | .ok v => .ok (encI32 v)

/-- ENC.U32 (R102). -/
def execEncU32 (s : State) : Host.Outcome State Fault Refusal :=
  .next (appendOrRaise (bytesOfU32 s.ports.numIn) s)

/-- ENC.I32 (R105). -/
def execEncI32 (s : State) : Host.Outcome State Fault Refusal :=
  .next (appendOrRaise (bytesOfI32 s.ports.numIn) s)

/-- ENC.VIEW (R106): a snapshot of `ENC_BUF[0..ENC_LEN)`; the encoder is unchanged. -/
def execEncView (s : State) : Host.Outcome State Fault Refusal :=
  .next (respond .ok (.bytes (memSlice s.encBuf 0 s.encLen)) s)

end Sys2Proof.Machine
end

