-- ==== Sys2Proof/Machine/Utf8.lean ====
section
/-! DEFINITION. UTF-8 as spec/42_string_framer.md gives it: the encoding table of R150 and the well-formedness table of
R151. Both tables are the spec's general knowledge (93, section 2); the model takes them as the spec states them. -/

namespace Sys2Proof.Machine

/-- The bytes of one scalar value (R150). `c[hi:lo]` is `c / 2^lo % 2^(hi-lo+1)`. -/
def utf8EncodeOne (c : Nat) : List Byte :=
  if c ≤ 0x7F then [BitVec.ofNat 8 c]
  else if c ≤ 0x7FF then
    [0xC0#8 ||| BitVec.ofNat 8 (c / 2 ^ 6 % 2 ^ 5), 0x80#8 ||| BitVec.ofNat 8 (c % 2 ^ 6)]
  else if c ≤ 0xFFFF then
    [0xE0#8 ||| BitVec.ofNat 8 (c / 2 ^ 12 % 2 ^ 4), 0x80#8 ||| BitVec.ofNat 8 (c / 2 ^ 6 % 2 ^ 6),
     0x80#8 ||| BitVec.ofNat 8 (c % 2 ^ 6)]
  else
    [0xF0#8 ||| BitVec.ofNat 8 (c / 2 ^ 18 % 2 ^ 3), 0x80#8 ||| BitVec.ofNat 8 (c / 2 ^ 12 % 2 ^ 6),
     0x80#8 ||| BitVec.ofNat 8 (c / 2 ^ 6 % 2 ^ 6), 0x80#8 ||| BitVec.ofNat 8 (c % 2 ^ 6)]

/-- `utf8Encode(t)` (R150): one scalar value at a time, in order. -/
def utf8Encode (t : Text) : List Byte := t.flatMap utf8EncodeOne

/-- An inclusive range of byte values, as R151's table writes them. -/
structure ByteRange where
  lo : Byte
  hi : Byte
  deriving DecidableEq, Repr

/-- `b` lies in the range `r`. -/
def inRange (r : ByteRange) (b : Byte) : Bool := r.lo ≤ b && b ≤ r.hi

/-- One row of R151's table: the range of byte 1, the ranges of the bytes after it, and how many low bits of byte 1
are value bits (R150). -/
structure Utf8Row where
  first : ByteRange
  rest : List ByteRange
  leadBits : Nat
  deriving DecidableEq, Repr

/-- `80 – BF`: any continuation byte. -/
def utf8Cont : ByteRange := ⟨0x80#8, 0xBF#8⟩

/-- The nine rows of R151, in the table's order. -/
def utf8Rows : List Utf8Row :=
  [⟨⟨0x00#8, 0x7F#8⟩, [], 7⟩,
   ⟨⟨0xC2#8, 0xDF#8⟩, [utf8Cont], 5⟩,
   ⟨⟨0xE0#8, 0xE0#8⟩, [⟨0xA0#8, 0xBF#8⟩, utf8Cont], 4⟩,
   ⟨⟨0xE1#8, 0xEC#8⟩, [utf8Cont, utf8Cont], 4⟩,
   ⟨⟨0xED#8, 0xED#8⟩, [⟨0x80#8, 0x9F#8⟩, utf8Cont], 4⟩,
   ⟨⟨0xEE#8, 0xEF#8⟩, [utf8Cont, utf8Cont], 4⟩,
   ⟨⟨0xF0#8, 0xF0#8⟩, [⟨0x90#8, 0xBF#8⟩, utf8Cont, utf8Cont], 3⟩,
   ⟨⟨0xF1#8, 0xF3#8⟩, [utf8Cont, utf8Cont, utf8Cont], 3⟩,
   ⟨⟨0xF4#8, 0xF4#8⟩, [⟨0x80#8, 0x8F#8⟩, utf8Cont, utf8Cont], 3⟩]

/-- The next bytes lie in the given ranges, one after another; fewer bytes than ranges do not match. -/
def bytesMatch : List ByteRange → List Byte → Bool
  | [], _ => true
  | _ :: _, [] => false
  | r :: rs, b :: bs => inRange r b && bytesMatch rs bs

/-- The bytes begin with a sequence of this row. -/
def rowMatches (bs : List Byte) (r : Utf8Row) : Bool := bytesMatch (r.first :: r.rest) bs

/-- The scalar value of a sequence of row `r`: the value bits of byte 1, then six bits of each byte after it (R150). -/
def rowValue (r : Utf8Row) (bs : List Byte) : Nat :=
  match bs with
  | [] => 0
  | b :: rest => (rest.take r.rest.length).foldl (fun acc c => acc * 2 ^ 6 + c.toNat % 2 ^ 6) (b.toNat % 2 ^ r.leadBits)

/-- The first well-formed sequence of `bs`: its scalar value and the bytes after it; none where `bs` begins with no
sequence of the table. -/
def utf8Next (bs : List Byte) : Option (Nat × List Byte) :=
  match utf8Rows.find? (rowMatches bs) with
  | some r => some (rowValue r bs, bs.drop (r.rest.length + 1))
  | none => none

/-- `utf8DecodeLoop n bs` reads sequences until `bs` is used up, at most `n` of them. -/
def utf8DecodeLoop : Nat → List Byte → Option Text
  | _, [] => some []
  | 0, _ :: _ => none
  | n + 1, b :: bs =>
    match utf8Next (b :: bs) with
    | none => none
    | some (c, rest) => (utf8DecodeLoop n rest).map (c :: ·)

/-- `utf8Decode(bs)` (R151): the scalar values, or none where `bs` is malformed. A sequence has at least one byte, so
`|bs|` sequences are enough. -/
def utf8Decode (bs : List Byte) : Option Text := utf8DecodeLoop bs.length bs

end Sys2Proof.Machine
end

