-- ==== Sys2Proof/Machine/Framer.lean ====
section
/-! DEFINITION. The length-prefixed string framer (spec/42_string_framer.md): ENC.PSTR and DEC.PSTR. -/

namespace Sys2Proof.Machine

/-- The bytes ENC.PSTR appends for an admitted text: the prefix, then the UTF-8 bytes; `OUT_OF_RANGE` where the length
is no unsigned varint (R152). -/
def bytesOfText (t : Text) : Except ErrKind (List Byte) :=
  if maxStringBytes < (utf8Encode t).length then .error .outOfRange
  else .ok (encU32 (utf8Encode t).length ++ utf8Encode t)

/-- ENC.PSTR (R152). A text outside `TEXT_IN`'s domain is refused by name, as R67 asks of a model. -/
def execEncPstr (s : State) : Host.Outcome State Fault Refusal :=
  if textAdmitted s.ports.textIn then .next (appendOrRaise (bytesOfText s.ports.textIn) s)
  else .refused .textOutsideDomain

/-- What DEC.PSTR reads at offset `p` of a source of length `len` (R153): the prefix, then the insufficient-bytes
check, then UTF-8 well-formedness (R209). -/
def readPstr (src : Memory) (len p : Nat) : Except ReadErr (Nat × Result) :=
  match decU32 src p with
  | .error k => .error k
  | .ok (l, k) =>
    if len < p + k + l then .error .incompleteNumber
    else
      match utf8Decode (memSlice src (p + k) (p + k + l)) with
      | none => .error .invalidUtf8
      | some t => .ok (k + l, .text t)

/-- DEC.PSTR (R153). -/
def execDecPstr (s : State) : Host.Outcome State Fault Refusal :=
  .next (readOrRaise (readPstr s.decSrc s.decLen s.decPos) s)

end Sys2Proof.Machine
end

