-- ==== Sys2Proof/Machine/Dispatch.lean ====
section
/-! DEFINITION. One arm per command (spec/30_encoding.md R61). -/

namespace Sys2Proof.Machine

def exec (i : Instr) (s : State) : Host.Outcome State Fault Refusal :=
  match i with
  | .encU32 => Sys2Proof.Machine.execEncU32 s
  | .encI32 => Sys2Proof.Machine.execEncI32 s
  | .encPstr => Sys2Proof.Machine.execEncPstr s
  | .encView => Sys2Proof.Machine.execEncView s
  | .decLoad => Sys2Proof.Machine.execDecLoad s
  | .decU32 => Sys2Proof.Machine.execDecU32 s
  | .decI32 => Sys2Proof.Machine.execDecI32 s
  | .decPstr => Sys2Proof.Machine.execDecPstr s

end Sys2Proof.Machine
end

