-- ==== Sys2Proof/Machine/Issue.lean ====
section
/-! DEFINITION. What one act of the host does to the block: an issued command word, a reset input, a read of a status
output (spec/30_encoding.md R60, R62; 70_reset_and_hazards.md R233; 10_state.md R28, R31). -/

namespace Sys2Proof.Machine

/-- A command word on `CMD` with the operand ports as they stand: the command it names, or `ILLEGAL_COMMAND` (R62). -/
def issueWord (w : Byte) (s : State) : Host.Outcome State Fault Refusal :=
  match decode w with
  | .ok i => exec i s
  | .error _ => .next (illegalCommand s)

/-- A host read has no side effect (R31); reading a port that holds no value is a fault (R28). -/
def hostRead (o : Output) (s : State) : Host.Outcome State Fault Refusal :=
  match readOutput o s with
  | some _ => .next s
  | none => .fault (.noValue o)

/-- One act of the host (R60, R233, R31). -/
def takeInput (h : HostInput) (s : State) : Host.Outcome State Fault Refusal :=
  match h with
  | .issue w p => issueWord w { s with ports := p }
  | .reset r => .next (applyReset r s)
  | .read o => hostRead o s

end Sys2Proof.Machine
end

