-- ==== Sys2Proof/Machine/Step.lean ====
section
/-! DEFINITION. One step: the host's next act, or nothing where the host does nothing (spec/20_memory.md R52;
60_exceptions.md R218). -/

namespace Sys2Proof.Machine

/-- The host's next act, taken whole before the one after it (R8, R52). With none to come the block is idle: it stays
as it is (R218; log entry 1). -/
def step (s : State) : Host.Outcome State Fault Refusal :=
  match s.hostInputs with
  | [] => .next s
  | h :: rest => takeInput h { s with hostInputs := rest }

/-- `s` with the command word `w` issued next, the operand ports standing as they are. The block fetches nothing
(R29): a command comes from the host. -/
def State.withFetchWord (s : State) (nbits w : Nat) : State :=
  { s with hostInputs := .issue (BitVec.ofNat 8 (w % 2 ^ nbits)) s.ports :: s.hostInputs }

end Sys2Proof.Machine
end

