-- ==== Sys2Proof/WellFormed.lean ====
section
/-! DEFINITION. When a command stands with its operand in the domain the spec gives it (spec/70_reset_and_hazards.md
R238). A command word has no operand bits, so the one check is on the operand ports. `NUM_IN` and `BYTES_IN` hold
only admitted values by their types; `TEXT_IN` may hold a number that is no scalar value (R67). -/

namespace Sys2Proof

/-- The operand of command `i` on the ports `p` lies in its domain (R238, R65, R67). -/
def Instr.wf (i : Instr) (p : Machine.Ports) : Bool :=
  match i with
  | .encU32 => true
  | .encI32 => true
  | .encPstr => Machine.textAdmitted p.textIn
  | .encView => true
  | .decLoad => true
  | .decU32 => true
  | .decI32 => true
  | .decPstr => true

end Sys2Proof
end

