-- ==== Sys2Proof/Safety.lean ====
section
/-! DEFINITION. What claims about the block are stated in: the invariant of its state, the answer of a command without
a result, the host's duties (spec/70_reset_and_hazards.md R235 to R238), runs, and a sequence of values appended and
read back (41_decoder.md R128). -/

namespace Sys2Proof.Machine

/-- The state after a command that reports `st` and presents no result: only the response elements change. -/
def answered (st : Status) (s : State) : State :=
  { s with respStatus := st, respWord := none, respText := none, respBytes := none }

/-- `f` applied to the next state of an outcome; a fault or a refusal is kept. -/
def onNext (f : State → State) : Host.Outcome State Fault Refusal → Host.Outcome State Fault Refusal
  | .next s => .next (f s)
  | .fault r => .fault r
  | .refused r => .refused r

/-- What holds of the block in every state it can reach (R22, R25, R26, R28, R67, R201, R206). -/
structure State.Inv (s : State) : Prop where
  /-- `ENC_LEN = |ENC_BUF|` (R22). -/
  encLen_eq : s.encLen = s.encBuf.length
  /-- `DEC_LEN = |DEC_SRC|` (R25). -/
  decLen_eq : s.decLen = s.decSrc.length
  /-- `DEC_POS <= DEC_LEN` (R26). -/
  decPos_le : s.decPos ≤ s.decLen
  /-- A bounded encoder holds no more than its bound (R102, R105, R152). -/
  enc_fits : overCapacity s.cfg.encMaxBytes s.encLen = false
  /-- A bounded decoder holds no more than its bound (R120). -/
  dec_fits : overCapacity s.cfg.decMaxBytes s.decLen = false
  /-- After an error no result port has a value (R206). -/
  error_no_result : s.respStatus ≠ .ok → s.respWord = none ∧ s.respText = none ∧ s.respBytes = none
  /-- At most one result port has a value (R28). -/
  word_alone : s.respWord ≠ none → s.respText = none ∧ s.respBytes = none
  text_alone : s.respText ≠ none → s.respWord = none ∧ s.respBytes = none
  /-- `RESP_TEXT` holds scalar values only (R28, R151). -/
  text_scalars : ∀ t, s.respText = some t → textAdmitted t = true
  /-- `RESP_BYTES` holds exactly the bytes written (R23, R106). -/
  bytes_exact : ∀ bs, s.respBytes = some bs → bs = s.encBuf

/-- The commands of the encoder that append (R102, R105, R152). -/
def appendCommands : List Instr := [.encU32, .encI32, .encPstr]

/-- The commands of the decoder that read (R123, R126, R153). -/
def readCommands : List Instr := [.decU32, .decI32, .decPstr]

/-- The commands of the encoder unit (R61). -/
def encCommands : List Instr := [.encU32, .encI32, .encPstr, .encView]

/-- The commands of the decoder unit (R61). -/
def decCommands : List Instr := [.decLoad, .decU32, .decI32, .decPstr]

/-- A host act in keeping with the host's duties: an issued command's operand lies in its domain (R238), no read is
issued to a failed decoder (R237), and no result port without a value is read (R28). Issuing one command at a time
(R236) holds of every run by the form of `step`. Reading in the order and kinds written (R235) is a duty about the
host's whole sequence: `Item` below gives the sequences that keep it. -/
def HostInput.dutiful (s : State) : HostInput → Prop
  | .issue w p => ∀ i, decode w = .ok i → i.wf p = true ∧ (i ∈ readCommands → s.decState = .ok)
  | .reset _ => True
  | .read o => readOutput o s ≠ none

/-- `n` steps, stopping at the first fault or refusal. -/
def runSteps : Nat → State → Host.Outcome State Fault Refusal
  | 0, s => .next s
  | n + 1, s =>
    match step s with
    | .next t => runSteps n t
    | .fault r => .fault r
    | .refused r => .refused r

/-- One value that a host writes with an append command and reads with the matching read command (R128, R235). -/
inductive Item where
  | u32 (v : Nat)
  | i32 (v : Int)
  | text (t : Text)
  deriving DecidableEq, Repr

/-- The value lies in the domain its append accepts (R102, R105, R152). -/
def Item.admitted : Item → Bool
  | .u32 v => v ≤ 2 ^ 32 - 1
  | .i32 v => -2 ^ 31 ≤ v && v ≤ 2 ^ 31 - 1
  | .text t => textAdmitted t && (utf8Encode t).length ≤ maxStringBytes

/-- The append command of the value, as the host issues it (R61, R63). -/
def Item.appendInput : Item → HostInput
  | .u32 v => .issue 0x10#8 { Ports.idle with numIn := .finite ((v : Int) : Rat) }
  | .i32 v => .issue 0x11#8 { Ports.idle with numIn := .finite (v : Rat) }
  | .text t => .issue 0x12#8 { Ports.idle with textIn := t }

/-- The matching read command (R235). -/
def Item.readInput : Item → HostInput
  | .u32 _ => .issue 0x21#8 Ports.idle
  | .i32 _ => .issue 0x22#8 Ports.idle
  | .text _ => .issue 0x23#8 Ports.idle

/-- The bytes of the value on the wire (R100, R103, R71). -/
def Item.wire : Item → List Byte
  | .u32 v => encU32 v
  | .i32 v => encI32 v
  | .text t => encU32 (utf8Encode t).length ++ utf8Encode t

/-- What the matching read presents on `RESP_WORD` (R64). -/
def Item.word : Item → Option Word
  | .u32 v => some (BitVec.ofNat 32 v)
  | .i32 v => some (BitVec.ofInt 32 v)
  | .text _ => none

/-- What the matching read presents on `RESP_TEXT` (R64). -/
def Item.textResult : Item → Option Text
  | .u32 _ => none
  | .i32 _ => none
  | .text t => some t

end Sys2Proof.Machine
end

