-- ==== Sys2Proof/Certificates/Slice0/Obligations.lean ====
section
/-! DEFINITION. The statements for the provers. -/

open Sys2Proof Sys2Proof.Machine

/-! ### The command word and the step -/

/-- R61's command column: the eight words, and no other, are commands. -/
def Obligations.OpcodeMapIsExactlyTheTable : Prop :=
  ∀ (w : Byte) (i : Instr), decode w = .ok i ↔
    (w, i) ∈ [(0x10#8, Instr.encU32), (0x11#8, .encI32), (0x12#8, .encPstr), (0x13#8, .encView),
      (0x20#8, .decLoad), (0x21#8, .decU32), (0x22#8, .decI32), (0x23#8, .decPstr)]

/-- Decoding the encoding of a command gives the command, and only that word decodes to it. -/
def Obligations.DecodeAndEncodeAgree : Prop :=
  (∀ i : Instr, decode (encode i) = .ok i) ∧
  (∀ (w : Byte) (i : Instr), decode w = .ok i → w = encode i)

/-- R60: a command issued by the host runs as the command its word names, with the ports as the host drives them. The
second clause is the model's reading, no rule of the spec: `withFetchWord` stands for the host's issuing one command
(log entry 1, DESIGN CHOICE), and `decodeTableWord` reads one 8-bit word (log entry 10, DEDUCED); the word that
`withFetchWord` places runs next, on the state as it is. -/
def Obligations.StepRunsTheDecodedCommand : Prop :=
  (∀ (s : State) (w : Byte) (p : Ports) (rest : List HostInput) (i : Instr),
    s.hostInputs = .issue w p :: rest → decode w = .ok i →
      step s = exec i { s with hostInputs := rest, ports := p }) ∧
  (∀ (s : State) (nbits w : Nat) (i : Instr),
    decodeTableWord nbits w = some i → step (s.withFetchWord nbits w) = exec i s)

/-- R62, R205: an illegal word completes with `ILLEGAL_COMMAND` and changes only the response elements. The host's
input is taken and its ports stand, as for every issued word. -/
def Obligations.IllegalWordChangesOnlyTheResponse : Prop :=
  ∀ (s : State) (w : Byte) (p : Ports) (rest : List HostInput),
    s.hostInputs = .issue w p :: rest →
    (w.toNat ≤ 0x0F ∨ (0x14 ≤ w.toNat ∧ w.toNat ≤ 0x1F) ∨ 0x24 ≤ w.toNat) →
      step s = .next { s with hostInputs := rest, ports := p, respStatus := .error .illegalCommand,
                              respWord := none, respText := none, respBytes := none }

/-- A block to which the host does nothing stays as it is. The model's reading of R218 (log entry 1). -/
def Obligations.IdleBlockStaysAsItIs : Prop :=
  ∀ s : State, s.hostInputs = [] → step s = .next s

/-- R63: each command reads at most one operand port; what stands on the others makes no difference. -/
def Obligations.OnlyTheOwnOperandPortIsRead : Prop :=
  ∀ (i : Instr) (s : State) (p : Ports),
    (i ∈ [Instr.encU32, .encI32] → p.numIn = s.ports.numIn) →
    (i = .encPstr → p.textIn = s.ports.textIn) →
    (i = .decLoad → p.bytesIn = s.ports.bytesIn) →
      exec i { s with ports := p } = onNext (fun t => { t with ports := p }) (exec i s)

/-- R28, R30: no command reads a response element, and every command writes all four of them: the outcome is the same
whatever they held before. -/
def Obligations.CommandsNeverReadTheResponse : Prop :=
  ∀ (i : Instr) (s : State) (st : Status) (w : Option Word) (t : Option Text) (b : Option (List Byte)),
    exec i { s with respStatus := st, respWord := w, respText := t, respBytes := b } = exec i s

/-- R2, R52: the units share no state. What DEC holds makes no difference to an ENC command, which leaves it; and the
other way round. -/
def Obligations.UnitsShareNoState : Prop :=
  (∀ i ∈ encCommands, ∀ (s : State) (src : Memory) (len pos : Nat) (d : DecState),
    exec i { s with decSrc := src, decLen := len, decPos := pos, decState := d } =
      onNext (fun t => { t with decSrc := src, decLen := len, decPos := pos, decState := d }) (exec i s)) ∧
  (∀ i ∈ decCommands, ∀ (s : State) (buf : Memory) (len : Nat),
    exec i { s with encBuf := buf, encLen := len } =
      onNext (fun t => { t with encBuf := buf, encLen := len }) (exec i s))

/-! ### Reset and the status outputs -/

/-- R32: the reset values, of the state after reset and of each reset input in any state; a reset of one unit leaves
the other unit's elements, and each reset sets the response elements. -/
def Obligations.ResetGivesTheSpecsValues : Prop :=
  (State.reset.encBuf = [] ∧ State.reset.encLen = 0 ∧ State.reset.decSrc = [] ∧ State.reset.decLen = 0 ∧
    State.reset.decPos = 0 ∧ State.reset.decState = .ok ∧ State.reset.respStatus = .ok ∧
    State.reset.respWord = none ∧ State.reset.respText = none ∧ State.reset.respBytes = none) ∧
  (∀ (s : State) (rest : List HostInput), s.hostInputs = .reset .rstEnc :: rest →
    step s = .next { s with hostInputs := rest, encBuf := [], encLen := 0, respStatus := .ok,
                            respWord := none, respText := none, respBytes := none }) ∧
  (∀ (s : State) (rest : List HostInput), s.hostInputs = .reset .rstDec :: rest →
    step s = .next { s with hostInputs := rest, decSrc := [], decLen := 0, decPos := 0, decState := .ok,
                            respStatus := .ok, respWord := none, respText := none, respBytes := none }) ∧
  (∀ (s : State) (rest : List HostInput), s.hostInputs = .reset .rst :: rest →
    step s = .next { s with hostInputs := rest, encBuf := [], encLen := 0, decSrc := [], decLen := 0, decPos := 0,
                            decState := .ok, respStatus := .ok, respWord := none, respText := none,
                            respBytes := none })

/-- R232: after a decoder reset every read raises `INCOMPLETE_NUMBER`, as on an empty source. -/
def Obligations.ResetDecoderReadsAsEmpty : Prop :=
  ∀ (s : State) (r : ResetInput) (rest : List HostInput),
    r ∈ [ResetInput.rstDec, .rst] → s.hostInputs = .reset r :: rest →
      ∃ t, step s = .next t ∧ t.decSrc = [] ∧ t.decLen = 0 ∧ t.decPos = 0 ∧ t.decState = .ok ∧
        t.respStatus = .ok ∧ t.respWord = none ∧ t.respText = none ∧ t.respBytes = none ∧
        (r = .rstDec → t.encBuf = s.encBuf ∧ t.encLen = s.encLen) ∧
        ∀ i ∈ readCommands, exec i t =
          .next { t with decState := .failed .incompleteNumber, respStatus := .error .incompleteNumber,
                         respWord := none, respText := none, respBytes := none }

/-- R31, R28: the host may read every status output at any time and the read changes nothing; only a result port that
holds no value faults. -/
def Obligations.HostReadsHaveNoSideEffect : Prop :=
  ∀ (s : State) (o : Output) (rest : List HostInput), s.hostInputs = .read o :: rest →
    (((o = .respWord ∧ s.respWord = none) ∨ (o = .respText ∧ s.respText = none) ∨
      (o = .respBytes ∧ s.respBytes = none)) ∧ step s = .fault (.noValue o)) ∨
    (¬ ((o = .respWord ∧ s.respWord = none) ∨ (o = .respText ∧ s.respText = none) ∨
      (o = .respBytes ∧ s.respBytes = none)) ∧ step s = .next { s with hostInputs := rest })

/-- R200: the code of each status; no two statuses share a code, and no reserved code is produced. -/
def Obligations.StatusCodesAreTheTables : Prop :=
  [Status.ok, .error .notAnInteger, .error .outOfRange, .error .incompleteNumber, .error .invalidUtf8,
    .error .illegalCommand, .error .capacityExceeded].map statusCode = [0#4, 1#4, 2#4, 3#4, 4#4, 5#4, 6#4] ∧
  (∀ a b : Status, statusCode a = statusCode b → a = b) ∧
  (∀ a : Status, (statusCode a).toNat ≤ 6)

/-! ### The encoder commands -/

/-- R66: integrality first, then range, on every operand; and the ranges of the two checks. -/
def Obligations.CheckedConversionIsIntegralityThenRange : Prop :=
  (∀ (x : NumOperand) (lo hi : Int),
    ((∀ v : Int, x ≠ .finite (v : Rat)) → checkInt x lo hi = .error .notAnInteger) ∧
    (∀ v : Int, x = .finite (v : Rat) → (v < lo ∨ hi < v) → checkInt x lo hi = .error .outOfRange) ∧
    (∀ v : Int, x = .finite (v : Rat) → lo ≤ v → v ≤ hi → checkInt x lo hi = .ok v)) ∧
  (∀ x : NumOperand, checkU32 x = checkInt x 0 (2 ^ 32 - 1) ∧ checkI32 x = checkInt x (-2 ^ 31) (2 ^ 31 - 1))

/-- R102, ENC.U32: its errors in their order, each changing only the response, and otherwise the append. -/
def Obligations.EncU32FollowsItsRule : Prop :=
  decode 0x10#8 = .ok .encU32 ∧ ∀ s : State,
    ((∀ v : Int, s.ports.numIn ≠ .finite (v : Rat)) →
      exec .encU32 s = .next (answered (.error .notAnInteger) s)) ∧
    (∀ v : Int, s.ports.numIn = .finite (v : Rat) → (v < 0 ∨ 2 ^ 32 - 1 < v) →
      exec .encU32 s = .next (answered (.error .outOfRange) s)) ∧
    (∀ v : Nat, s.ports.numIn = .finite ((v : Int) : Rat) → v ≤ 2 ^ 32 - 1 →
      (overCapacity s.cfg.encMaxBytes (s.encLen + (encU32 v).length) = true →
        exec .encU32 s = .next (answered (.error .capacityExceeded) s)) ∧
      (overCapacity s.cfg.encMaxBytes (s.encLen + (encU32 v).length) = false →
        exec .encU32 s = .next { s with
          encBuf := s.encBuf ++ encU32 v, encLen := s.encLen + (encU32 v).length,
          respStatus := .ok, respWord := none, respText := none, respBytes := none }))

/-- R105, ENC.I32: as ENC.U32, with the signed range and encoding. -/
def Obligations.EncI32FollowsItsRule : Prop :=
  decode 0x11#8 = .ok .encI32 ∧ ∀ s : State,
    ((∀ v : Int, s.ports.numIn ≠ .finite (v : Rat)) →
      exec .encI32 s = .next (answered (.error .notAnInteger) s)) ∧
    (∀ v : Int, s.ports.numIn = .finite (v : Rat) → (v < -2 ^ 31 ∨ 2 ^ 31 - 1 < v) →
      exec .encI32 s = .next (answered (.error .outOfRange) s)) ∧
    (∀ v : Int, s.ports.numIn = .finite (v : Rat) → -2 ^ 31 ≤ v → v ≤ 2 ^ 31 - 1 →
      (overCapacity s.cfg.encMaxBytes (s.encLen + (encI32 v).length) = true →
        exec .encI32 s = .next (answered (.error .capacityExceeded) s)) ∧
      (overCapacity s.cfg.encMaxBytes (s.encLen + (encI32 v).length) = false →
        exec .encI32 s = .next { s with
          encBuf := s.encBuf ++ encI32 v, encLen := s.encLen + (encI32 v).length,
          respStatus := .ok, respWord := none, respText := none, respBytes := none }))

/-- R152, ENC.PSTR, with R67's refusal: a text that is no list of scalar values is refused; a length that is no
unsigned varint is out of range; then capacity; otherwise prefix and text are appended together. -/
def Obligations.EncPstrFollowsItsRule : Prop :=
  decode 0x12#8 = .ok .encPstr ∧ ∀ s : State,
    ((∃ c ∈ s.ports.textIn, ¬ (c ≤ 0xD7FF ∨ (0xE000 ≤ c ∧ c ≤ 0x10FFFF))) →
      exec .encPstr s = .refused .textOutsideDomain) ∧
    ((∀ c ∈ s.ports.textIn, c ≤ 0xD7FF ∨ (0xE000 ≤ c ∧ c ≤ 0x10FFFF)) →
      (2 ^ 32 - 1 < (utf8Encode s.ports.textIn).length →
        exec .encPstr s = .next (answered (.error .outOfRange) s)) ∧
      ((utf8Encode s.ports.textIn).length ≤ 2 ^ 32 - 1 →
        ∀ pre : List Byte, pre = encU32 (utf8Encode s.ports.textIn).length →
        (overCapacity s.cfg.encMaxBytes (s.encLen + pre.length + (utf8Encode s.ports.textIn).length) = true →
          exec .encPstr s = .next (answered (.error .capacityExceeded) s)) ∧
        (overCapacity s.cfg.encMaxBytes (s.encLen + pre.length + (utf8Encode s.ports.textIn).length) = false →
          exec .encPstr s = .next { s with
            encBuf := s.encBuf ++ (pre ++ utf8Encode s.ports.textIn),
            encLen := s.encLen + (pre.length + (utf8Encode s.ports.textIn).length),
            respStatus := .ok, respWord := none, respText := none, respBytes := none })))

/-- R106, ENC.VIEW: it always succeeds, presents exactly `ENC_BUF[0..ENC_LEN)`, and changes nothing else. -/
def Obligations.EncViewPresentsExactlyTheBuffer : Prop :=
  decode 0x13#8 = .ok .encView ∧ ∀ s : State, exec .encView s = .next { s with
    respStatus := .ok, respWord := none, respText := none, respBytes := some (s.encBuf.take s.encLen) }

/-- R101: the length law of the unsigned encoding, its continuation bits, and its last byte. -/
def Obligations.UnsignedEncodingObeysTheLengthLaw : Prop :=
  ∀ v : Nat, v ≤ 2 ^ 32 - 1 →
    1 ≤ (encU32 v).length ∧ v < 2 ^ (7 * (encU32 v).length) ∧
    (∀ n, 1 ≤ n → v < 2 ^ (7 * n) → (encU32 v).length ≤ n) ∧
    (∀ k b, (encU32 v)[k]? = some b → (b.getLsbD 7 = true ↔ k + 1 < (encU32 v).length)) ∧
    ((encU32 v).getLast? = some 0#8 → v = 0)

/-- R104: the length law of the signed encoding. -/
def Obligations.SignedEncodingObeysTheLengthLaw : Prop :=
  ∀ v : Int, -2 ^ 31 ≤ v → v ≤ 2 ^ 31 - 1 →
    1 ≤ (encI32 v).length ∧ (encI32 v).length ≤ 5 ∧
    -2 ^ (7 * (encI32 v).length - 1) ≤ v ∧ v ≤ 2 ^ (7 * (encI32 v).length - 1) - 1 ∧
    (∀ n, 1 ≤ n → -2 ^ (7 * n - 1) ≤ v → v ≤ 2 ^ (7 * n - 1) - 1 → (encI32 v).length ≤ n)

/-- R69, R70: what the encoders produce is a varint of the value, of the form the wire format describes. -/
def Obligations.EncodersProduceVarintsOfTheValue : Prop :=
  (∀ v : Nat, v ≤ 2 ^ 32 - 1 → UVarint (encU32 v) v) ∧
  (∀ v : Int, -2 ^ 31 ≤ v → v ≤ 2 ^ 31 - 1 → SVarint (encI32 v) v)

/-- R203: an append command that reports an error leaves the encoder, and everything but the response, unchanged. -/
def Obligations.FailedAppendChangesOnlyTheResponse : Prop :=
  ∀ i ∈ appendCommands, ∀ s t : State, exec i s = .next t → t.respStatus ≠ .ok →
    t.encBuf = s.encBuf ∧ t.encLen = s.encLen ∧ t = answered t.respStatus s

/-- The frame of the append commands (R41): every byte of the encoder's memory outside the bytes appended, which lie
from `ENC_LEN` up to the new `ENC_LEN`, reads as before; and nothing else but the response changes. -/
def Obligations.AppendFrame : Prop :=
  ∀ i ∈ appendCommands, ∀ s t : State, s.encLen = s.encBuf.length → exec i s = .next t →
    s.encLen ≤ t.encLen ∧
    (∀ a, ¬ (s.encLen ≤ a ∧ a < t.encLen) → memRead t.encBuf a = memRead s.encBuf a) ∧
    (∀ a, memRead t.decSrc a = memRead s.decSrc a) ∧
    t.decLen = s.decLen ∧ t.decPos = s.decPos ∧ t.decState = s.decState ∧ t.cfg = s.cfg ∧ t.ports = s.ports ∧
    t.hostInputs = s.hostInputs ∧ t.respWord = none ∧ t.respText = none ∧ t.respBytes = none

/-- R21, R22: the encoder's buffer only grows at its end and its bytes never change, until an encoder reset; `ENC_LEN`
grows by the bytes an append wrote, and only a successful append writes any. -/
def Obligations.EncoderBufferIsAppendOnly : Prop :=
  ∀ s t : State, step s = .next t →
    (∃ rest, (s.hostInputs = .reset .rstEnc :: rest ∨ s.hostInputs = .reset .rst :: rest) ∧
      t.encBuf = [] ∧ t.encLen = 0) ∨
    (∃ bs, t.encBuf = s.encBuf ++ bs ∧ t.encLen = s.encLen + bs.length ∧
      (bs ≠ [] → t.respStatus = .ok ∧ ∃ w p rest, s.hostInputs = .issue w p :: rest ∧
        w ∈ [0x10#8, 0x11#8, 0x12#8]))

/-! ### The decoder commands -/

/-- R120, DEC.LOAD: accepted in every `DEC_STATE`; beyond a bound it changes only the response. -/
def Obligations.DecLoadFollowsItsRule : Prop :=
  decode 0x20#8 = .ok .decLoad ∧ ∀ s : State,
    (overCapacity s.cfg.decMaxBytes s.ports.bytesIn.length = true →
      exec .decLoad s = .next (answered (.error .capacityExceeded) s)) ∧
    (overCapacity s.cfg.decMaxBytes s.ports.bytesIn.length = false →
      exec .decLoad s = .next { s with
        decSrc := s.ports.bytesIn, decLen := s.ports.bytesIn.length, decPos := 0, decState := .ok,
        respStatus := .ok, respWord := none, respText := none, respBytes := none })

/-- R69, R73, R123: DEC.U32 reads every unsigned varint at the cursor, minimal or not, whatever follows it: it gives
the value and moves the cursor past exactly its bytes. -/
def Obligations.DecU32ReadsEveryUnsignedVarint : Prop :=
  ∀ (s : State) (bs rest : List Byte) (v : Nat),
    s.decState = .ok → s.decSrc.drop s.decPos = bs ++ rest → UVarint bs v →
      exec .decU32 s = .next { s with
        decPos := s.decPos + bs.length,
        respStatus := .ok, respWord := some (BitVec.ofNat 32 v), respText := none, respBytes := none }

/-- R70, R73, R126: DEC.I32 reads every signed varint at the cursor; `RESP_WORD` is `v mod 2^32`. -/
def Obligations.DecI32ReadsEverySignedVarint : Prop :=
  ∀ (s : State) (bs rest : List Byte) (v : Int),
    s.decState = .ok → s.decSrc.drop s.decPos = bs ++ rest → SVarint bs v →
      exec .decI32 s = .next { s with
        decPos := s.decPos + bs.length,
        respStatus := .ok, respWord := some (BitVec.ofNat 32 (v % 2 ^ 32).toNat), respText := none,
        respBytes := none }

/-- R71, R153: DEC.PSTR reads every prefixed string at the cursor: an unsigned varint of the byte count, minimal or
not, then that many bytes, the UTF-8 form of the text it gives. -/
def Obligations.DecPstrReadsEveryPrefixedString : Prop :=
  ∀ (s : State) (pre rest : List Byte) (t : Text),
    s.decState = .ok → s.decLen = s.decSrc.length → s.decPos ≤ s.decLen →
    s.decSrc.drop s.decPos = pre ++ utf8Encode t ++ rest →
    UVarint pre (utf8Encode t).length → (∀ c ∈ t, c ≤ 0xD7FF ∨ (0xE000 ≤ c ∧ c ≤ 0x10FFFF)) →
      exec .decPstr s = .next { s with
        decPos := s.decPos + pre.length + (utf8Encode t).length,
        respStatus := .ok, respWord := none, respText := some t, respBytes := none }

/-- R153, DEC.PSTR: a failed decoder answers its kind; otherwise the prefix's error, then too few bytes, then bytes that
are not well-formed UTF-8 (the form of no text), each with the cursor left before the prefix; and otherwise the text. -/
def Obligations.DecPstrFollowsItsRule : Prop :=
  decode 0x23#8 = .ok .decPstr ∧ ∀ s : State,
    (∀ k, s.decState = .failed k → exec .decPstr s = .next (answered (.error (readErrKind k)) s)) ∧
    (s.decState = .ok →
      (∀ k, decU32 s.decSrc s.decPos = .error k →
        exec .decPstr s = .next (answered (.error (readErrKind k)) { s with decState := .failed k })) ∧
      (∀ l k, decU32 s.decSrc s.decPos = .ok (l, k) → s.decLen < s.decPos + k + l →
        exec .decPstr s =
          .next (answered (.error .incompleteNumber) { s with decState := .failed .incompleteNumber })) ∧
      (∀ l k, decU32 s.decSrc s.decPos = .ok (l, k) → s.decPos + k + l ≤ s.decLen →
        (∀ t : Text, (∀ c ∈ t, c ≤ 0xD7FF ∨ (0xE000 ≤ c ∧ c ≤ 0x10FFFF)) →
          utf8Encode t ≠ (s.decSrc.drop (s.decPos + k)).take l) →
        exec .decPstr s = .next (answered (.error .invalidUtf8) { s with decState := .failed .invalidUtf8 })) ∧
      (∀ l k, decU32 s.decSrc s.decPos = .ok (l, k) → s.decPos + k + l ≤ s.decLen →
        ∀ t : Text, (∀ c ∈ t, c ≤ 0xD7FF ∨ (0xE000 ≤ c ∧ c ≤ 0x10FFFF)) →
          utf8Encode t = (s.decSrc.drop (s.decPos + k)).take l →
        exec .decPstr s = .next { s with
          decPos := s.decPos + k + l,
          respStatus := .ok, respWord := none, respText := some t, respBytes := none }))

/-- R69, R121: the unsigned decoder accepts exactly the unsigned varints, and gives their value and length. -/
def Obligations.UnsignedDecoderAcceptsExactlyTheVarints : Prop :=
  ∀ (src : Memory) (p v n : Nat),
    decU32 src p = .ok (v, n) ↔ ∃ bs, bs <+: src.drop p ∧ bs.length = n ∧ UVarint bs v

/-- R70, R124: the signed decoder accepts exactly the signed varints, and gives their value and length. -/
def Obligations.SignedDecoderAcceptsExactlyTheVarints : Prop :=
  ∀ (src : Memory) (p : Nat) (v : Int) (n : Nat),
    decI32 src p = .ok (v, n) ↔ ∃ bs, bs <+: src.drop p ∧ bs.length = n ∧ SVarint bs v

/-- R208: an integer read is incomplete exactly when the source ends, before a fifth byte, with every byte left having
C = 1; it is out of range exactly when four bytes with C = 1 are followed by a fifth that fails the fifth-byte test. -/
def Obligations.IntegerReadErrorsAreExact : Prop :=
  ∀ (src : Memory) (p : Nat),
    (decU32 src p = .error .incompleteNumber ↔
      (src.drop p).length ≤ 4 ∧ ∀ b ∈ src.drop p, b.getLsbD 7 = true) ∧
    (decI32 src p = .error .incompleteNumber ↔
      (src.drop p).length ≤ 4 ∧ ∀ b ∈ src.drop p, b.getLsbD 7 = true) ∧
    (decU32 src p = .error .outOfRange ↔
      (∀ b ∈ (src.drop p).take 4, b.getLsbD 7 = true) ∧
      ∃ b, src[p + 4]? = some b ∧ 0x10 ≤ b.toNat) ∧
    (decI32 src p = .error .outOfRange ↔
      (∀ b ∈ (src.drop p).take 4, b.getLsbD 7 = true) ∧
      ∃ b, src[p + 4]? = some b ∧ ¬ (b.toNat ≤ 0x07 ∨ (0x78 ≤ b.toNat ∧ b.toNat ≤ 0x7F)))

/-- R123, DEC.U32: a failed decoder answers its kind; otherwise the error of `decU32`, with the cursor left; and otherwise
the value on `RESP_WORD` and the cursor past the bytes consumed. -/
def Obligations.DecU32FollowsItsRule : Prop :=
  decode 0x21#8 = .ok .decU32 ∧ ∀ s : State,
    (∀ k, s.decState = .failed k → exec .decU32 s = .next (answered (.error (readErrKind k)) s)) ∧
    (s.decState = .ok →
      (∀ k, decU32 s.decSrc s.decPos = .error k →
        exec .decU32 s = .next (answered (.error (readErrKind k)) { s with decState := .failed k })) ∧
      (∀ v n, decU32 s.decSrc s.decPos = .ok (v, n) → v ≤ 2 ^ 32 - 1 ∧
        exec .decU32 s = .next { s with
          decPos := s.decPos + n,
          respStatus := .ok, respWord := some (BitVec.ofNat 32 v), respText := none, respBytes := none }))

/-- R126, DEC.I32: as DEC.U32, with the signed reading; `RESP_WORD` is `v mod 2^32`, and its signed reading is `v`. -/
def Obligations.DecI32FollowsItsRule : Prop :=
  decode 0x22#8 = .ok .decI32 ∧ ∀ s : State,
    (∀ k, s.decState = .failed k → exec .decI32 s = .next (answered (.error (readErrKind k)) s)) ∧
    (s.decState = .ok →
      (∀ k, decI32 s.decSrc s.decPos = .error k →
        exec .decI32 s = .next (answered (.error (readErrKind k)) { s with decState := .failed k })) ∧
      (∀ v n, decI32 s.decSrc s.decPos = .ok (v, n) →
        (BitVec.ofNat 32 (v % 2 ^ 32).toNat).toInt = v ∧
        exec .decI32 s = .next { s with
          decPos := s.decPos + n,
          respStatus := .ok, respWord := some (BitVec.ofNat 32 (v % 2 ^ 32).toNat), respText := none,
          respBytes := none }))

/-- R125: the signed fifth-byte window is the range rule: a five-byte pattern is in range exactly when its fifth
payload is 00 to 07 or 78 to 7F, any other raises, and shorter varints need no range check. -/
def Obligations.SignedFifthByteWindowIsTheRangeRule : Prop :=
  (∀ (bs rest : List Byte) (b : Byte), bs.length = 4 → (∀ c ∈ bs, c.getLsbD 7 = true) → b.getLsbD 7 = false →
    ((-2 ^ 31 ≤ sext 35 (groupSum (bs ++ [b])) ∧ sext 35 (groupSum (bs ++ [b])) ≤ 2 ^ 31 - 1) ↔
      (b.toNat ≤ 0x07 ∨ 0x78 ≤ b.toNat)) ∧
    (0x08 ≤ b.toNat → b.toNat ≤ 0x77 → decI32 (bs ++ b :: rest) 0 = .error .outOfRange)) ∧
  (∀ bs : List Byte, bs ≠ [] → bs.length ≤ 4 →
    -2 ^ 27 ≤ sext (7 * bs.length) (groupSum bs) ∧ sext (7 * bs.length) (groupSum bs) ≤ 2 ^ 27 - 1)

/-- R122, R239, R42: the outcome of an integer read is that of the five bytes at the cursor (fewer where the source ends)
alone, no byte before or after them making a difference; it consumes 1 to 5 of them, and never reaches past the end of
the source. -/
def Obligations.IntegerReadsExamineAtMostFiveBytes : Prop :=
  ∀ (src : Memory) (p : Nat),
    decU32 src p = decU32 ((src.drop p).take 5) 0 ∧ decI32 src p = decI32 ((src.drop p).take 5) 0 ∧
    (∀ v n, decU32 src p = .ok (v, n) → 1 ≤ n ∧ n ≤ 5 ∧ p + n ≤ src.length ∧ v ≤ 2 ^ 32 - 1) ∧
    (∀ v n, decI32 src p = .ok (v, n) →
      1 ≤ n ∧ n ≤ 5 ∧ p + n ≤ src.length ∧ -2 ^ 31 ≤ v ∧ v ≤ 2 ^ 31 - 1)

/-- R126, R64: after a successful DEC.I32 the word is the two's-complement pattern, and its signed reading is the
value that was read. -/
def Obligations.SignedReadingOfTheWordIsTheValue : Prop :=
  ∀ (s t : State) (v : Int) (n : Nat),
    s.decState = .ok → decI32 s.decSrc s.decPos = .ok (v, n) → exec .decI32 s = .next t →
      respWordSigned t = some v ∧ t.respWord = some (BitVec.ofNat 32 (v % 2 ^ 32).toNat)

/-- R204: a read that raises while `DEC_STATE = OK` leaves the cursor and the source, sets `FAILED(K)`, reports that
`K`, and changes nothing else. -/
def Obligations.FailedReadRestoresTheCursor : Prop :=
  ∀ i ∈ readCommands, ∀ s t : State, s.decState = .ok → exec i s = .next t → t.respStatus ≠ .ok →
    ∃ k : ReadErr, t.respStatus = .error (readErrKind k) ∧
      t = answered (.error (readErrKind k)) { s with decState := .failed k }

/-- R210: while `DEC_STATE = FAILED(K)` each read answers `K` again, with no result, and changes nothing else. -/
def Obligations.FailedDecoderAnswersTheSameKind : Prop :=
  ∀ i ∈ readCommands, ∀ (s : State) (k : ReadErr), s.decState = .failed k →
    exec i s = .next (answered (.error (readErrKind k)) s)

/-- R211: only a successful DEC.LOAD and a decoder reset lead out of `FAILED(K)`, and both do: they set `OK` and move the
cursor to 0. Every other step keeps the first `K`. Encoder commands and illegal words never change `DEC_STATE`. -/
def Obligations.OnlyLoadOrResetLeavesFailure : Prop :=
  (∀ (s t : State) (k : ReadErr), s.decState = .failed k → step s = .next t →
    t.decState = .failed k ∨
    (t.decState = .ok ∧ t.decPos = 0 ∧ ∃ rest,
      (∃ p, s.hostInputs = .issue 0x20#8 p :: rest ∧ t.respStatus = .ok) ∨
      s.hostInputs = .reset .rstDec :: rest ∨ s.hostInputs = .reset .rst :: rest)) ∧
  (∀ (s t : State) (w : Byte) (p : Ports) (rest : List HostInput),
    s.hostInputs = .issue w p :: rest → step s = .next t → (w.toNat < 0x20 ∨ 0x24 ≤ w.toNat) →
      t.decState = s.decState) ∧
  (∀ (s t : State) (rest : List HostInput), step s = .next t →
    ((∃ p, s.hostInputs = .issue 0x20#8 p :: rest ∧ t.respStatus = .ok) ∨
      s.hostInputs = .reset .rstDec :: rest ∨ s.hostInputs = .reset .rst :: rest) →
      t.decState = .ok ∧ t.decPos = 0)

/-- R24, R25: only a successful DEC.LOAD and a decoder reset write `DEC_SRC` and `DEC_LEN`, and each replaces them
whole. -/
def Obligations.OnlyLoadOrResetWritesTheSource : Prop :=
  ∀ s t : State, step s = .next t →
    (t.decSrc = s.decSrc ∧ t.decLen = s.decLen) ∨
    (∃ p rest, s.hostInputs = .issue 0x20#8 p :: rest ∧ t.respStatus = .ok ∧
      t.decSrc = p.bytesIn ∧ t.decLen = p.bytesIn.length) ∨
    (∃ rest, (s.hostInputs = .reset .rstDec :: rest ∨ s.hostInputs = .reset .rst :: rest) ∧
      t.decSrc = [] ∧ t.decLen = 0)

/-- R26: a successful read moves the cursor forward, within the source; a failed read leaves it; DEC.LOAD and a decoder
reset set it to 0; nothing else moves it. -/
def Obligations.ReadCursorMovesOnlyByItsRule : Prop :=
  ∀ s t : State, s.Inv → step s = .next t →
    t.decPos = s.decPos ∨
    (t.decPos = 0 ∧ ∃ rest, (∃ p, s.hostInputs = .issue 0x20#8 p :: rest ∧ t.respStatus = .ok) ∨
      s.hostInputs = .reset .rstDec :: rest ∨ s.hostInputs = .reset .rst :: rest) ∨
    (s.decPos < t.decPos ∧ t.decPos ≤ s.decLen ∧ t.respStatus = .ok ∧ s.decState = .ok ∧
      ∃ w p rest, s.hostInputs = .issue w p :: rest ∧ w ∈ [0x21#8, 0x22#8, 0x23#8])

/-- The frame of ENC.VIEW and of the decoder's commands: every byte of the encoder's memory reads as before, and a
command other than DEC.LOAD leaves every byte of the source; the configuration and the inputs stay. -/
def Obligations.ViewLoadAndReadFrame : Prop :=
  ∀ i ∈ Instr.encView :: decCommands, ∀ s t : State, exec i s = .next t →
    (∀ a, memRead t.encBuf a = memRead s.encBuf a) ∧ t.encLen = s.encLen ∧
    (i ≠ .decLoad → (∀ a, memRead t.decSrc a = memRead s.decSrc a) ∧ t.decLen = s.decLen) ∧
    (i = .encView → t.decPos = s.decPos ∧ t.decState = s.decState) ∧
    t.cfg = s.cfg ∧ t.ports = s.ports ∧ t.hostInputs = s.hostInputs

/-! ### Text -/

/-- R150, R151: `utf8Decode` inverts `utf8Encode` exactly: it gives a text if and only if the text is a list of scalar
values whose encoding is those bytes; every other byte list is malformed. -/
def Obligations.Utf8DecodeInvertsEncode : Prop :=
  ∀ (bs : List Byte) (t : Text), utf8Decode bs = some t ↔
    (∀ c ∈ t, c ≤ 0xD7FF ∨ (0xE000 ≤ c ∧ c ≤ 0x10FFFF)) ∧ utf8Encode t = bs

/-- R154: the round trip of every admitted text from offset 0, whatever follows it. -/
def Obligations.PrefixedStringRoundTrip : Prop :=
  ∀ (t : Text) (rest : List Byte) (s : State),
    (∀ c ∈ t, c ≤ 0xD7FF ∨ (0xE000 ≤ c ∧ c ≤ 0x10FFFF)) → (utf8Encode t).length ≤ 2 ^ 32 - 1 →
    s.decState = .ok → s.decPos = 0 →
    s.decSrc = encU32 (utf8Encode t).length ++ utf8Encode t ++ rest → s.decLen = s.decSrc.length →
      exec .decPstr s = .next { s with
        decPos := (encU32 (utf8Encode t).length).length + (utf8Encode t).length,
        respStatus := .ok, respWord := none, respText := some t, respBytes := none }

/-! ### Whole-machine statements -/

/-- R128: the round-trip laws of both integer encodings. -/
def Obligations.IntegerRoundTrips : Prop :=
  (∀ (v : Nat) (t : List Byte), v ≤ 2 ^ 32 - 1 → decU32 (encU32 v ++ t) 0 = .ok (v, (encU32 v).length)) ∧
  (∀ (v : Int) (t : List Byte), -2 ^ 31 ≤ v → v ≤ 2 ^ 31 - 1 →
    decI32 (encI32 v ++ t) 0 = .ok (v, (encI32 v).length))

/-- R128, R52: a sequence of admitted values of any kinds, appended one after another to an unbounded encoder, writes
their wire forms back to back; and from those bytes, loaded into the decoder, the matching reads give back each value
in order, with the cursor at the boundary after it. -/
def Obligations.AppendedSequenceReadsBackInOrder : Prop :=
  ∀ items : List Item, (∀ x ∈ items, x.admitted = true) →
    (∀ (s : State) (rest : List HostInput), s.cfg.encMaxBytes = .unbounded →
      s.hostInputs = items.map Item.appendInput ++ rest →
        ∃ t, runSteps items.length s = .next t ∧ t.encBuf = s.encBuf ++ items.flatMap Item.wire ∧
          t.encLen = s.encLen + (items.flatMap Item.wire).length ∧ t.hostInputs = rest ∧
          t.decSrc = s.decSrc ∧ t.decLen = s.decLen ∧ t.decPos = s.decPos ∧ t.decState = s.decState) ∧
    (∀ (first : List Item) (x : Item) (last : List Item) (s : State), items = first ++ x :: last →
      s.cfg.decMaxBytes = .unbounded →
      s.hostInputs = .issue 0x20#8 { Ports.idle with bytesIn := items.flatMap Item.wire } ::
        items.map Item.readInput →
        ∃ t, runSteps (1 + (first.length + 1)) s = .next t ∧ t.respStatus = .ok ∧ t.respWord = x.word ∧
          t.respText = x.textResult ∧ t.decPos = ((first ++ [x]).flatMap Item.wire).length ∧ t.decState = .ok ∧
          t.encBuf = s.encBuf ∧ t.encLen = s.encLen)

/-- The state after reset meets the invariant, with any configuration. -/
def Obligations.ResetMeetsTheInvariant : Prop :=
  State.reset.Inv ∧ ∀ c : Config, (State.resetWith c).Inv

/-- R22, R25, R26, R28, R206: every step from a state that meets the invariant gives one that meets it. -/
def Obligations.EveryStepKeepsTheInvariant : Prop :=
  ∀ s t : State, s.Inv → step s = .next t → t.Inv

/-- No step changes the configuration. That R4's OPEN parameters stand in `State.cfg`, fixed for the machine, is the
model's reading of "a model takes each parameter marked OPEN as an argument" (log entry 2, DEDUCED). -/
def Obligations.EveryStepKeepsTheConfiguration : Prop :=
  ∀ s t : State, step s = .next t → t.cfg = s.cfg

/-- R202: no command reports an error but those of its row; a read of a failed decoder reports the sticky kind; an
illegal word reports `ILLEGAL_COMMAND` and nothing else. -/
def Obligations.EachCommandRaisesOnlyItsErrors : Prop :=
  (∀ (i : Instr) (s t : State) (k : ErrKind), exec i s = .next t → t.respStatus = .error k →
    (i ∈ [Instr.encU32, .encI32] ∧ k ∈ [ErrKind.notAnInteger, .outOfRange, .capacityExceeded]) ∨
    (i = .encPstr ∧ k ∈ [ErrKind.outOfRange, .capacityExceeded]) ∨
    (i = .decLoad ∧ k = .capacityExceeded) ∨
    (i ∈ [Instr.decU32, .decI32] ∧ s.decState = .ok ∧ k ∈ [ErrKind.incompleteNumber, .outOfRange]) ∨
    (i = .decPstr ∧ s.decState = .ok ∧ k ∈ [ErrKind.incompleteNumber, .outOfRange, .invalidUtf8]) ∨
    (i ∈ readCommands ∧ ∃ r, s.decState = .failed r ∧ k = readErrKind r)) ∧
  (∀ (w : Byte) (e : DecodeError) (s t : State), decode w = .error e → issueWord w s = .next t →
    t.respStatus = .error .illegalCommand)

/-- R201: with both bounds unbounded no command produces `CAPACITY_EXCEEDED`. -/
def Obligations.UnboundedStorageIsNeverExceeded : Prop :=
  ∀ (i : Instr) (s t : State), s.cfg.encMaxBytes = .unbounded → s.cfg.decMaxBytes = .unbounded →
    exec i s = .next t → t.respStatus ≠ .error .capacityExceeded

/-- R28, R64, R206: which result port holds a value after a command, and when. -/
def Obligations.ResultPortsHoldOnlyTheCommandsResult : Prop :=
  ∀ (i : Instr) (s t : State), exec i s = .next t →
    (t.respWord ≠ none ↔ i ∈ [Instr.decU32, .decI32] ∧ t.respStatus = .ok) ∧
    (t.respText ≠ none ↔ i = .decPstr ∧ t.respStatus = .ok) ∧
    (t.respBytes ≠ none ↔ i = .encView)

/-- R28, R67: a step stops only where the spec asks a model to stop: a host read of a result port with no value, and an
ENC.PSTR whose text is no list of scalar values. -/
def Obligations.StepStopsOnlyWhereTheSpecAsks : Prop :=
  (∀ (s : State) (f : Fault), step s = .fault f ↔
    ∃ o rest, s.hostInputs = .read o :: rest ∧ f = .noValue o ∧ readOutput o s = none) ∧
  (∀ (s : State) (r : Refusal), step s = .refused r ↔
    ∃ p rest, s.hostInputs = .issue 0x12#8 p :: rest ∧ r = .textOutsideDomain ∧
      ∃ c ∈ p.textIn, ¬ (c ≤ 0xD7FF ∨ (0xE000 ≤ c ∧ c ≤ 0x10FFFF)))

/-- R238, R239, R237, R28: a host that keeps its duties always gets a next state: operands in their domain, no read
command to a failed decoder, no host read of a result port without a value (R28). With no act to come the premise is
empty and the next state is that of the idle step, the model's reading (log entry 1). -/
def Obligations.DutifulHostAlwaysGetsAnAnswer : Prop :=
  ∀ s : State, (∀ h rest, s.hostInputs = h :: rest → h.dutiful s) → ∃ t, step s = .next t
end

