-- ==== Sys2Proof/Laws/Memory.lean ====
section
/-! SUPPORT. The memory: its canonical form, and reading after writing. -/

namespace Sys2Proof.Machine

/-- The (address, byte) pairs of any memory are in the canonical form, so every operation keeps it: an append, a load
of any byte list, a slice, and the empty memory of reset. -/
theorem memCells_wf (m : Memory) : Memory.wf (memCells m) = true := by
  simp [Memory.wf, memCells, List.map_map, Function.comp_def, List.zipIdx_map_snd, List.range_eq_range']

theorem memAppend_wf (m : Memory) (bs : List Byte) : Memory.wf (memCells (memAppend m bs)) = true := memCells_wf _

theorem memSlice_wf (m : Memory) (lo hi : Nat) : Memory.wf (memCells (memSlice m lo hi)) = true := memCells_wf _

theorem reset_encBuf_wf : Memory.wf (memCells State.reset.encBuf) = true := memCells_wf _

theorem reset_decSrc_wf : Memory.wf (memCells State.reset.decSrc) = true := memCells_wf _

/-- Two memories with the same pairs are the same memory. -/
theorem memCells_injective {m n : Memory} (h : memCells m = memCells n) : m = n := by
  have := congrArg (List.map Prod.snd) h
  simpa [memCells, List.map_map, Function.comp_def, List.zipIdx_map_fst] using this

/-- An append leaves every byte below the old end (R41). -/
theorem memRead_memAppend_below (m : Memory) (bs : List Byte) (a : Nat) (h : a < m.length) :
    memRead (memAppend m bs) a = memRead m a := List.getElem?_append_left h

/-- An append writes its bytes from the old end on (R41). -/
theorem memRead_memAppend_at (m : Memory) (bs : List Byte) (k : Nat) :
    memRead (memAppend m bs) (m.length + k) = bs[k]? := by
  unfold memRead memAppend
  rw [List.getElem?_append_right (by omega), Nat.add_sub_cancel_left]

/-- Nothing is read at or above the end (R41, R42). -/
theorem memRead_none_iff (m : Memory) (a : Nat) : memRead m a = none ↔ m.length ≤ a := by
  simp [memRead]

end Sys2Proof.Machine
end

