-- ==== Sys2Proof/Laws/Operands.lean ====
section
/-! SUPPORT. The operand check on integers, what errors it can give, and the capacity test. -/

namespace Sys2Proof.Machine

/-- A rational is an integer exactly when its denominator in lowest terms is 1. -/
theorem den_eq_one_iff (q : Rat) : q.den = 1 ↔ ∃ v : Int, q = (v : Rat) := by
  constructor
  · intro h
    exact ⟨q.num, ((Rat.den_eq_one_iff q).mp h).symm⟩
  · rintro ⟨v, rfl⟩
    simp

/-- `checkInt` on an integer is the range test alone (R66). -/
theorem checkInt_int (v lo hi : Int) :
    checkInt (.finite (v : Rat)) lo hi = if v < lo ∨ hi < v then .error .outOfRange else .ok v := rfl

/-- The two errors of the check, and no other (R66). -/
theorem checkInt_error {x : NumOperand} {lo hi : Int} {k : ErrKind} (h : checkInt x lo hi = .error k) :
    k = .notAnInteger ∨ k = .outOfRange := by
  unfold checkInt at h
  split at h
  · cases h; exact .inl rfl
  · cases h; exact .inl rfl
  · cases h; exact .inl rfl
  · split at h
    · cases h; exact .inl rfl
    · split at h <;> cases h
      exact .inr rfl

/-- An unbounded store is never too small (R5). -/
@[simp] theorem overCapacity_unbounded (n : Nat) : overCapacity .unbounded n = false := rfl

/-- No bytes fit in every store. -/
@[simp] theorem overCapacity_zero (c : Capacity) : overCapacity c 0 = false := by
  cases c <;> simp [overCapacity]

end Sys2Proof.Machine
end

