-- ==== Sys2Proof/Laws/State.lean ====
section
/-! SUPPORT. One lemma per field for each shared operation that updates the state: what the field holds afterwards. -/

namespace Sys2Proof.Machine

@[simp] theorem respond_encBuf (st : Status) (r : Result) (s : State) : (respond st r s).encBuf = s.encBuf := rfl
@[simp] theorem respond_encLen (st : Status) (r : Result) (s : State) : (respond st r s).encLen = s.encLen := rfl
@[simp] theorem respond_decSrc (st : Status) (r : Result) (s : State) : (respond st r s).decSrc = s.decSrc := rfl
@[simp] theorem respond_decLen (st : Status) (r : Result) (s : State) : (respond st r s).decLen = s.decLen := rfl
@[simp] theorem respond_decPos (st : Status) (r : Result) (s : State) : (respond st r s).decPos = s.decPos := rfl
@[simp] theorem respond_decState (st : Status) (r : Result) (s : State) : (respond st r s).decState = s.decState := rfl
@[simp] theorem respond_respStatus (st : Status) (r : Result) (s : State) : (respond st r s).respStatus = st := rfl
@[simp] theorem respond_respWord (st : Status) (r : Result) (s : State) : (respond st r s).respWord = resultWord r := rfl
@[simp] theorem respond_respText (st : Status) (r : Result) (s : State) : (respond st r s).respText = resultText r := rfl
@[simp] theorem respond_respBytes (st : Status) (r : Result) (s : State) : (respond st r s).respBytes = resultBytes r := rfl
@[simp] theorem respond_cfg (st : Status) (r : Result) (s : State) : (respond st r s).cfg = s.cfg := rfl
@[simp] theorem respond_ports (st : Status) (r : Result) (s : State) : (respond st r s).ports = s.ports := rfl
@[simp] theorem respond_hostInputs (st : Status) (r : Result) (s : State) : (respond st r s).hostInputs = s.hostInputs := rfl

@[simp] theorem raise_encBuf (k : ErrKind) (s : State) : (raise k s).encBuf = s.encBuf := rfl
@[simp] theorem raise_encLen (k : ErrKind) (s : State) : (raise k s).encLen = s.encLen := rfl
@[simp] theorem raise_decSrc (k : ErrKind) (s : State) : (raise k s).decSrc = s.decSrc := rfl
@[simp] theorem raise_decLen (k : ErrKind) (s : State) : (raise k s).decLen = s.decLen := rfl
@[simp] theorem raise_decPos (k : ErrKind) (s : State) : (raise k s).decPos = s.decPos := rfl
@[simp] theorem raise_decState (k : ErrKind) (s : State) : (raise k s).decState = s.decState := rfl
@[simp] theorem raise_respStatus (k : ErrKind) (s : State) : (raise k s).respStatus = .error k := rfl
@[simp] theorem raise_respWord (k : ErrKind) (s : State) : (raise k s).respWord = none := rfl
@[simp] theorem raise_respText (k : ErrKind) (s : State) : (raise k s).respText = none := rfl
@[simp] theorem raise_respBytes (k : ErrKind) (s : State) : (raise k s).respBytes = none := rfl
@[simp] theorem raise_cfg (k : ErrKind) (s : State) : (raise k s).cfg = s.cfg := rfl
@[simp] theorem raise_ports (k : ErrKind) (s : State) : (raise k s).ports = s.ports := rfl
@[simp] theorem raise_hostInputs (k : ErrKind) (s : State) : (raise k s).hostInputs = s.hostInputs := rfl

@[simp] theorem raiseRead_encBuf (k : ReadErr) (s : State) : (raiseRead k s).encBuf = s.encBuf := rfl
@[simp] theorem raiseRead_encLen (k : ReadErr) (s : State) : (raiseRead k s).encLen = s.encLen := rfl
@[simp] theorem raiseRead_decSrc (k : ReadErr) (s : State) : (raiseRead k s).decSrc = s.decSrc := rfl
@[simp] theorem raiseRead_decLen (k : ReadErr) (s : State) : (raiseRead k s).decLen = s.decLen := rfl
@[simp] theorem raiseRead_decPos (k : ReadErr) (s : State) : (raiseRead k s).decPos = s.decPos := rfl
@[simp] theorem raiseRead_decState (k : ReadErr) (s : State) : (raiseRead k s).decState = .failed k := rfl
@[simp] theorem raiseRead_respStatus (k : ReadErr) (s : State) : (raiseRead k s).respStatus = .error (readErrKind k) := rfl
@[simp] theorem raiseRead_respWord (k : ReadErr) (s : State) : (raiseRead k s).respWord = none := rfl
@[simp] theorem raiseRead_respText (k : ReadErr) (s : State) : (raiseRead k s).respText = none := rfl
@[simp] theorem raiseRead_respBytes (k : ReadErr) (s : State) : (raiseRead k s).respBytes = none := rfl
@[simp] theorem raiseRead_cfg (k : ReadErr) (s : State) : (raiseRead k s).cfg = s.cfg := rfl
@[simp] theorem raiseRead_ports (k : ReadErr) (s : State) : (raiseRead k s).ports = s.ports := rfl
@[simp] theorem raiseRead_hostInputs (k : ReadErr) (s : State) : (raiseRead k s).hostInputs = s.hostInputs := rfl

@[simp] theorem illegalCommand_encBuf (s : State) : (illegalCommand s).encBuf = s.encBuf := rfl
@[simp] theorem illegalCommand_encLen (s : State) : (illegalCommand s).encLen = s.encLen := rfl
@[simp] theorem illegalCommand_decSrc (s : State) : (illegalCommand s).decSrc = s.decSrc := rfl
@[simp] theorem illegalCommand_decLen (s : State) : (illegalCommand s).decLen = s.decLen := rfl
@[simp] theorem illegalCommand_decPos (s : State) : (illegalCommand s).decPos = s.decPos := rfl
@[simp] theorem illegalCommand_decState (s : State) : (illegalCommand s).decState = s.decState := rfl
@[simp] theorem illegalCommand_respStatus (s : State) : (illegalCommand s).respStatus = .error .illegalCommand := rfl
@[simp] theorem illegalCommand_respWord (s : State) : (illegalCommand s).respWord = none := rfl
@[simp] theorem illegalCommand_respText (s : State) : (illegalCommand s).respText = none := rfl
@[simp] theorem illegalCommand_respBytes (s : State) : (illegalCommand s).respBytes = none := rfl
@[simp] theorem illegalCommand_cfg (s : State) : (illegalCommand s).cfg = s.cfg := rfl
@[simp] theorem illegalCommand_ports (s : State) : (illegalCommand s).ports = s.ports := rfl
@[simp] theorem illegalCommand_hostInputs (s : State) : (illegalCommand s).hostInputs = s.hostInputs := rfl

@[simp] theorem bufAppend_encBuf (bs : List Byte) (s : State) : (bufAppend bs s).encBuf = s.encBuf ++ bs := rfl
@[simp] theorem bufAppend_encLen (bs : List Byte) (s : State) : (bufAppend bs s).encLen = s.encLen + bs.length := rfl
@[simp] theorem bufAppend_decSrc (bs : List Byte) (s : State) : (bufAppend bs s).decSrc = s.decSrc := rfl
@[simp] theorem bufAppend_decLen (bs : List Byte) (s : State) : (bufAppend bs s).decLen = s.decLen := rfl
@[simp] theorem bufAppend_decPos (bs : List Byte) (s : State) : (bufAppend bs s).decPos = s.decPos := rfl
@[simp] theorem bufAppend_decState (bs : List Byte) (s : State) : (bufAppend bs s).decState = s.decState := rfl
@[simp] theorem bufAppend_respStatus (bs : List Byte) (s : State) : (bufAppend bs s).respStatus = s.respStatus := rfl
@[simp] theorem bufAppend_respWord (bs : List Byte) (s : State) : (bufAppend bs s).respWord = s.respWord := rfl
@[simp] theorem bufAppend_respText (bs : List Byte) (s : State) : (bufAppend bs s).respText = s.respText := rfl
@[simp] theorem bufAppend_respBytes (bs : List Byte) (s : State) : (bufAppend bs s).respBytes = s.respBytes := rfl
@[simp] theorem bufAppend_cfg (bs : List Byte) (s : State) : (bufAppend bs s).cfg = s.cfg := rfl
@[simp] theorem bufAppend_ports (bs : List Byte) (s : State) : (bufAppend bs s).ports = s.ports := rfl
@[simp] theorem bufAppend_hostInputs (bs : List Byte) (s : State) : (bufAppend bs s).hostInputs = s.hostInputs := rfl

@[simp] theorem resetEnc_encBuf (s : State) : (resetEnc s).encBuf = [] := rfl
@[simp] theorem resetEnc_encLen (s : State) : (resetEnc s).encLen = 0 := rfl
@[simp] theorem resetEnc_decSrc (s : State) : (resetEnc s).decSrc = s.decSrc := rfl
@[simp] theorem resetEnc_decLen (s : State) : (resetEnc s).decLen = s.decLen := rfl
@[simp] theorem resetEnc_decPos (s : State) : (resetEnc s).decPos = s.decPos := rfl
@[simp] theorem resetEnc_decState (s : State) : (resetEnc s).decState = s.decState := rfl
@[simp] theorem resetEnc_respStatus (s : State) : (resetEnc s).respStatus = .ok := rfl
@[simp] theorem resetEnc_respWord (s : State) : (resetEnc s).respWord = none := rfl
@[simp] theorem resetEnc_respText (s : State) : (resetEnc s).respText = none := rfl
@[simp] theorem resetEnc_respBytes (s : State) : (resetEnc s).respBytes = none := rfl
@[simp] theorem resetEnc_cfg (s : State) : (resetEnc s).cfg = s.cfg := rfl
@[simp] theorem resetEnc_ports (s : State) : (resetEnc s).ports = s.ports := rfl
@[simp] theorem resetEnc_hostInputs (s : State) : (resetEnc s).hostInputs = s.hostInputs := rfl

@[simp] theorem resetDec_encBuf (s : State) : (resetDec s).encBuf = s.encBuf := rfl
@[simp] theorem resetDec_encLen (s : State) : (resetDec s).encLen = s.encLen := rfl
@[simp] theorem resetDec_decSrc (s : State) : (resetDec s).decSrc = [] := rfl
@[simp] theorem resetDec_decLen (s : State) : (resetDec s).decLen = 0 := rfl
@[simp] theorem resetDec_decPos (s : State) : (resetDec s).decPos = 0 := rfl
@[simp] theorem resetDec_decState (s : State) : (resetDec s).decState = .ok := rfl
@[simp] theorem resetDec_respStatus (s : State) : (resetDec s).respStatus = .ok := rfl
@[simp] theorem resetDec_respWord (s : State) : (resetDec s).respWord = none := rfl
@[simp] theorem resetDec_respText (s : State) : (resetDec s).respText = none := rfl
@[simp] theorem resetDec_respBytes (s : State) : (resetDec s).respBytes = none := rfl
@[simp] theorem resetDec_cfg (s : State) : (resetDec s).cfg = s.cfg := rfl
@[simp] theorem resetDec_ports (s : State) : (resetDec s).ports = s.ports := rfl
@[simp] theorem resetDec_hostInputs (s : State) : (resetDec s).hostInputs = s.hostInputs := rfl

@[simp] theorem answered_encBuf (st : Status) (s : State) : (answered st s).encBuf = s.encBuf := rfl
@[simp] theorem answered_encLen (st : Status) (s : State) : (answered st s).encLen = s.encLen := rfl
@[simp] theorem answered_decSrc (st : Status) (s : State) : (answered st s).decSrc = s.decSrc := rfl
@[simp] theorem answered_decLen (st : Status) (s : State) : (answered st s).decLen = s.decLen := rfl
@[simp] theorem answered_decPos (st : Status) (s : State) : (answered st s).decPos = s.decPos := rfl
@[simp] theorem answered_decState (st : Status) (s : State) : (answered st s).decState = s.decState := rfl
@[simp] theorem answered_respStatus (st : Status) (s : State) : (answered st s).respStatus = st := rfl
@[simp] theorem answered_respWord (st : Status) (s : State) : (answered st s).respWord = none := rfl
@[simp] theorem answered_respText (st : Status) (s : State) : (answered st s).respText = none := rfl
@[simp] theorem answered_respBytes (st : Status) (s : State) : (answered st s).respBytes = none := rfl
@[simp] theorem answered_cfg (st : Status) (s : State) : (answered st s).cfg = s.cfg := rfl
@[simp] theorem answered_ports (st : Status) (s : State) : (answered st s).ports = s.ports := rfl
@[simp] theorem answered_hostInputs (st : Status) (s : State) : (answered st s).hostInputs = s.hostInputs := rfl

end Sys2Proof.Machine
end

