-- ==== Sys2Proof/Laws/Utf8.lean ====
section
/-! SUPPORT. UTF-8: the rows of R151 are the encodings of R150, a prefix code, and what the decoding loop computes. -/

namespace Sys2Proof.Machine

theorem inRange_iff (lo hi b : Byte) : inRange ⟨lo, hi⟩ b = true ↔ lo.toNat ≤ b.toNat ∧ b.toNat ≤ hi.toNat := by
  simp [inRange, BitVec.le_def]

theorem contByte_toNat (x : Nat) (h : x < 64) : (0x80#8 ||| BitVec.ofNat 8 x).toNat = 128 + x := by
  have : ∀ x : Fin 64, (0x80#8 ||| BitVec.ofNat 8 x.1).toNat = 128 + x.1 := by decide
  exact this ⟨x, h⟩
theorem lead2_toNat (x : Nat) (h : x < 32) : (0xC0#8 ||| BitVec.ofNat 8 x).toNat = 192 + x := by
  have : ∀ x : Fin 32, (0xC0#8 ||| BitVec.ofNat 8 x.1).toNat = 192 + x.1 := by decide
  exact this ⟨x, h⟩
theorem lead3_toNat (x : Nat) (h : x < 16) : (0xE0#8 ||| BitVec.ofNat 8 x).toNat = 224 + x := by
  have : ∀ x : Fin 16, (0xE0#8 ||| BitVec.ofNat 8 x.1).toNat = 224 + x.1 := by decide
  exact this ⟨x, h⟩
theorem lead4_toNat (x : Nat) (h : x < 8) : (0xF0#8 ||| BitVec.ofNat 8 x).toNat = 240 + x := by
  have : ∀ x : Fin 8, (0xF0#8 ||| BitVec.ofNat 8 x.1).toNat = 240 + x.1 := by decide
  exact this ⟨x, h⟩

theorem eq_contByte (b : Byte) (x : Nat) (h : x < 64) (hb : b.toNat = 128 + x) : 0x80#8 ||| BitVec.ofNat 8 x = b :=
  BitVec.eq_of_toNat_eq (by rw [contByte_toNat x h, hb])
theorem eq_lead2 (b : Byte) (x : Nat) (h : x < 32) (hb : b.toNat = 192 + x) : 0xC0#8 ||| BitVec.ofNat 8 x = b :=
  BitVec.eq_of_toNat_eq (by rw [lead2_toNat x h, hb])
theorem eq_lead3 (b : Byte) (x : Nat) (h : x < 16) (hb : b.toNat = 224 + x) : 0xE0#8 ||| BitVec.ofNat 8 x = b :=
  BitVec.eq_of_toNat_eq (by rw [lead3_toNat x h, hb])
theorem eq_lead4 (b : Byte) (x : Nat) (h : x < 8) (hb : b.toNat = 240 + x) : 0xF0#8 ||| BitVec.ofNat 8 x = b :=
  BitVec.eq_of_toNat_eq (by rw [lead4_toNat x h, hb])

theorem isScalar_iff (c : Nat) : isScalar c = true ↔ c ≤ 0xD7FF ∨ (0xE000 ≤ c ∧ c ≤ 0x10FFFF) := by
  simp [isScalar]

/-- The domain of `TEXT_IN` in R67's own terms. -/
theorem textAdmitted_iff (t : Text) :
    textAdmitted t = true ↔ ∀ c ∈ t, c ≤ 0xD7FF ∨ (0xE000 ≤ c ∧ c ≤ 0x10FFFF) := by
  rw [textAdmitted, List.all_eq_true]
  exact ⟨fun h c hc => (isScalar_iff c).mp (h c hc), fun h c hc => (isScalar_iff c).mpr (h c hc)⟩

/-- The bytes of a row: as many as the row has, each in its range. -/
theorem rowMatches_cons (bs : List Byte) (r : Utf8Row) (h : rowMatches bs r = true) :
    ∃ b rest, bs = b :: rest ∧ inRange r.first b = true ∧ bytesMatch r.rest rest = true := by
  cases bs with
  | nil => simp [rowMatches, bytesMatch] at h
  | cons b rest => exact ⟨b, rest, rfl, by simpa [rowMatches, bytesMatch] using h⟩

theorem bytesMatch_cons (bs : List Byte) (r : ByteRange) (rs : List ByteRange) (h : bytesMatch (r :: rs) bs = true) :
    ∃ b rest, bs = b :: rest ∧ inRange r b = true ∧ bytesMatch rs rest = true := by
  cases bs with
  | nil => simp [bytesMatch] at h
  | cons b rest => exact ⟨b, rest, rfl, by simpa [bytesMatch] using h⟩

/-- A sequence of a row of R151 is the encoding by R150 of its scalar value. -/
theorem utf8Next_some {bs : List Byte} {c : Nat} {rest : List Byte} (h : utf8Next bs = some (c, rest)) :
    isScalar c = true ∧ bs = utf8EncodeOne c ++ rest := by
  unfold utf8Next at h
  split at h
  · rename_i r hr
    have hmem := List.mem_of_find?_eq_some hr
    have hmatch : rowMatches bs r = true := List.find?_some hr
    obtain ⟨b1, r1, rfl, h1, hm⟩ := rowMatches_cons _ _ hmatch
    simp only [Option.some.injEq, Prod.mk.injEq] at h
    obtain ⟨hc, rfl⟩ := h
    rw [isScalar_iff]
    have hb1 := b1.isLt
    simp only [utf8Rows, List.mem_cons, List.not_mem_nil, or_false] at hmem
    rcases hmem with rfl | rfl | rfl | rfl | rfl | rfl | rfl | rfl | rfl
    case inl =>
      simp only [inRange_iff] at h1
      simp [rowValue] at hc h1
      have hc' : c = b1.toNat := by omega
      subst hc'
      refine ⟨by omega, ?_⟩
      simp [utf8EncodeOne, h1]
    case inr.inl =>
      obtain ⟨b2, r2, rfl, h2, -⟩ := bytesMatch_cons _ _ _ hm
      simp only [utf8Cont, inRange_iff] at h1 h2
      simp [rowValue, utf8Cont] at hc h1 h2
      refine ⟨by omega, ?_⟩
      rw [utf8EncodeOne, if_neg (by omega), if_pos (by omega), eq_lead2 b1 _ (by omega) (by omega), eq_contByte b2 _ (by omega) (by omega)]
      simp
    case inr.inr.inl | inr.inr.inr.inl | inr.inr.inr.inr.inl | inr.inr.inr.inr.inr.inl =>
      obtain ⟨b2, r2, rfl, h2, hm⟩ := bytesMatch_cons _ _ _ hm
      obtain ⟨b3, r3, rfl, h3, -⟩ := bytesMatch_cons _ _ _ hm
      simp only [utf8Cont, inRange_iff] at h1 h2 h3
      simp [rowValue, utf8Cont] at hc h1 h2 h3
      refine ⟨by omega, ?_⟩
      rw [utf8EncodeOne, if_neg (by omega), if_neg (by omega), if_pos (by omega), eq_lead3 b1 _ (by omega) (by omega),
        eq_contByte b2 _ (by omega) (by omega), eq_contByte b3 _ (by omega) (by omega)]
      simp
    all_goals
      obtain ⟨b2, r2, rfl, h2, hm⟩ := bytesMatch_cons _ _ _ hm
      obtain ⟨b3, r3, rfl, h3, hm⟩ := bytesMatch_cons _ _ _ hm
      obtain ⟨b4, r4, rfl, h4, -⟩ := bytesMatch_cons _ _ _ hm
      simp only [utf8Cont, inRange_iff] at h1 h2 h3 h4
      simp [rowValue, utf8Cont] at hc h1 h2 h3 h4
      refine ⟨by omega, ?_⟩
      rw [utf8EncodeOne, if_neg (by omega), if_neg (by omega), if_neg (by omega), eq_lead4 b1 _ (by omega) (by omega),
        eq_contByte b2 _ (by omega) (by omega), eq_contByte b3 _ (by omega) (by omega), eq_contByte b4 _ (by omega) (by omega)]
      simp
  · simp at h


/-- The encodings of R150 form a prefix code: bytes that begin with one begin with only one. -/
theorem utf8EncodeOne_append_inj {c d : Nat} {x y : List Byte} (hc : isScalar c = true) (hd : isScalar d = true)
    (h : utf8EncodeOne c ++ x = utf8EncodeOne d ++ y) : c = d ∧ x = y := by
  rw [isScalar_iff] at hc hd
  unfold utf8EncodeOne at h
  split_ifs at h <;>
    simp only [List.cons_append, List.nil_append, List.cons.injEq, ← BitVec.toNat_inj] at h <;>
    simp (disch := omega) only [lead2_toNat, lead3_toNat, lead4_toNat, contByte_toNat, BitVec.toNat_ofNat] at h <;>
    (try (exfalso; omega)) <;>
    refine ⟨by omega, ?_⟩ <;> simp only [h]

theorem find_isSome_of_row {bs : List Byte} (r : Utf8Row) (hr : r ∈ utf8Rows) (h : rowMatches bs r = true) :
    (utf8Rows.find? (rowMatches bs)).isSome = true :=
  List.find?_isSome.mpr ⟨r, hr, h⟩

theorem exists_row (c : Nat) (rest : List Byte) (hc : isScalar c = true) :
    (utf8Rows.find? (rowMatches (utf8EncodeOne c ++ rest))).isSome = true := by
  rw [isScalar_iff] at hc
  unfold utf8EncodeOne
  split_ifs with h1 h2 h3
  · apply find_isSome_of_row ⟨⟨0x00#8, 0x7F#8⟩, [], 7⟩ (by decide)
    simp [rowMatches, bytesMatch, inRange_iff, BitVec.toNat_ofNat]; omega
  · apply find_isSome_of_row ⟨⟨0xC2#8, 0xDF#8⟩, [utf8Cont], 5⟩ (by decide)
    simp (disch := omega) [rowMatches, bytesMatch, inRange_iff, utf8Cont, lead2_toNat, contByte_toNat, -BitVec.toNat_or]; omega
  · by_cases a1 : c < 0x1000
    · apply find_isSome_of_row ⟨⟨0xE0#8, 0xE0#8⟩, [⟨0xA0#8, 0xBF#8⟩, utf8Cont], 4⟩ (by decide)
      simp (disch := omega) [rowMatches, bytesMatch, inRange_iff, utf8Cont, lead3_toNat, contByte_toNat, -BitVec.toNat_or]; omega
    · by_cases a2 : c < 0xD000
      · apply find_isSome_of_row ⟨⟨0xE1#8, 0xEC#8⟩, [utf8Cont, utf8Cont], 4⟩ (by decide)
        simp (disch := omega) [rowMatches, bytesMatch, inRange_iff, utf8Cont, lead3_toNat, contByte_toNat, -BitVec.toNat_or]; omega
      · by_cases a3 : c ≤ 0xD7FF
        · apply find_isSome_of_row ⟨⟨0xED#8, 0xED#8⟩, [⟨0x80#8, 0x9F#8⟩, utf8Cont], 4⟩ (by decide)
          simp (disch := omega) [rowMatches, bytesMatch, inRange_iff, utf8Cont, lead3_toNat, contByte_toNat, -BitVec.toNat_or]; omega
        · apply find_isSome_of_row ⟨⟨0xEE#8, 0xEF#8⟩, [utf8Cont, utf8Cont], 4⟩ (by decide)
          simp (disch := omega) [rowMatches, bytesMatch, inRange_iff, utf8Cont, lead3_toNat, contByte_toNat, -BitVec.toNat_or]; omega
  · by_cases a1 : c < 0x40000
    · apply find_isSome_of_row ⟨⟨0xF0#8, 0xF0#8⟩, [⟨0x90#8, 0xBF#8⟩, utf8Cont, utf8Cont], 3⟩ (by decide)
      simp (disch := omega) [rowMatches, bytesMatch, inRange_iff, utf8Cont, lead4_toNat, contByte_toNat, -BitVec.toNat_or]; omega
    · by_cases a2 : c < 0x100000
      · apply find_isSome_of_row ⟨⟨0xF1#8, 0xF3#8⟩, [utf8Cont, utf8Cont, utf8Cont], 3⟩ (by decide)
        simp (disch := omega) [rowMatches, bytesMatch, inRange_iff, utf8Cont, lead4_toNat, contByte_toNat, -BitVec.toNat_or]; omega
      · apply find_isSome_of_row ⟨⟨0xF4#8, 0xF4#8⟩, [⟨0x80#8, 0x8F#8⟩, utf8Cont, utf8Cont], 3⟩ (by decide)
        simp (disch := omega) [rowMatches, bytesMatch, inRange_iff, utf8Cont, lead4_toNat, contByte_toNat, -BitVec.toNat_or]; omega

/-- Reading the encoding of a scalar value gives that value and what follows. -/
theorem utf8Next_encodeOne {c : Nat} (rest : List Byte) (hc : isScalar c = true) :
    utf8Next (utf8EncodeOne c ++ rest) = some (c, rest) := by
  have hs := exists_row c rest hc
  obtain ⟨r, hr⟩ := Option.isSome_iff_exists.mp hs
  have hn : utf8Next (utf8EncodeOne c ++ rest) =
      some (rowValue r (utf8EncodeOne c ++ rest), (utf8EncodeOne c ++ rest).drop (r.rest.length + 1)) := by
    simp only [utf8Next, hr]
  obtain ⟨hd, he⟩ := utf8Next_some hn
  obtain ⟨h1, h2⟩ := utf8EncodeOne_append_inj hc hd he
  rw [hn, ← h1, ← h2]

theorem utf8EncodeOne_ne_nil (c : Nat) : utf8EncodeOne c ≠ [] := by
  unfold utf8EncodeOne; split_ifs <;> simp

/-- `utf8DecodeLoop` with fuel for every byte gives a text exactly for the encodings of admitted texts. -/
theorem utf8DecodeLoop_iff : ∀ n bs t, bs.length ≤ n →
    (utf8DecodeLoop n bs = some t ↔ textAdmitted t = true ∧ utf8Encode t = bs) := by
  intro n
  induction n with
  | zero =>
    intro bs t hl
    have : bs = [] := List.length_eq_zero_iff.mp (by omega)
    subst this
    cases t with
    | nil => simp [utf8DecodeLoop, textAdmitted, utf8Encode]
    | cons c t => simp [utf8DecodeLoop, utf8Encode, utf8EncodeOne_ne_nil]
  | succ n ih =>
    intro bs t hl
    cases bs with
    | nil =>
      cases t with
      | nil => simp [utf8DecodeLoop, textAdmitted, utf8Encode]
      | cons c t => simp [utf8DecodeLoop, utf8Encode, utf8EncodeOne_ne_nil]
    | cons b bs =>
      simp only [utf8DecodeLoop]
      cases hn : utf8Next (b :: bs) with
      | none =>
        simp only [reduceCtorEq, false_iff, not_and]
        intro ht he
        cases t with
        | nil => simp [utf8Encode] at he
        | cons c t =>
          have hc : isScalar c = true := by simp [textAdmitted] at ht; exact ht.1
          have := utf8Next_encodeOne (utf8Encode t) hc
          rw [show utf8EncodeOne c ++ utf8Encode t = b :: bs from by simpa [utf8Encode] using he, hn] at this
          simp at this
      | some x =>
        obtain ⟨c, rest⟩ := x
        obtain ⟨hc, he⟩ := utf8Next_some hn
        have hrl : rest.length ≤ n := by
          have h1 := congrArg List.length he
          have h2 := List.length_pos_iff.mpr (utf8EncodeOne_ne_nil c)
          simp at h1 hl; omega
        simp only [Option.map_eq_some_iff]
        constructor
        · rintro ⟨t', ht', rfl⟩
          obtain ⟨ha, hb⟩ := (ih rest t' hrl).mp ht'
          exact ⟨by simpa [textAdmitted, hc] using ha, by rw [he, ← hb]; simp [utf8Encode]⟩
        · rintro ⟨ha, hb⟩
          cases t with
          | nil => simp [utf8Encode] at hb
          | cons d t =>
            simp only [textAdmitted, List.all_cons, Bool.and_eq_true] at ha
            rw [he, show utf8Encode (d :: t) = utf8EncodeOne d ++ utf8Encode t from by simp [utf8Encode]] at hb
            obtain ⟨rfl, rfl⟩ := utf8EncodeOne_append_inj ha.1 hc hb
            exact ⟨t, (ih _ t hrl).mpr ⟨ha.2, rfl⟩, rfl⟩

end Sys2Proof.Machine
end

