-- ==== Sys2Proof/Laws/Varint.lean ====
section
/-! SUPPORT. The encoded byte, the wire format's sums and signs, and what each loop of Machine/Varint.lean computes. -/

namespace Sys2Proof.Machine

theorem payload_eq (b : Byte) : payload b = b.toNat % 128 := by
  simp [payload]

theorem payload_lt (b : Byte) : payload b < 128 := by
  rw [payload_eq]; omega

theorem continues_eq (b : Byte) : continues b = decide (128 ≤ b.toNat) := by
  revert b; decide

theorem payload_lastByte (g : Nat) (h : g < 128) : payload (lastByte g) = g := by
  rw [payload_eq, lastByte, BitVec.toNat_ofNat]; omega

theorem continues_lastByte (g : Nat) (h : g < 128) : continues (lastByte g) = false := by
  rw [continues_eq, lastByte, BitVec.toNat_ofNat]; simp; omega

theorem moreByte_toNat (g : Nat) (h : g < 128) : (moreByte g).toNat = 128 + g := by
  have : ∀ g : Fin 128, (moreByte g.1).toNat = 128 + g.1 := by decide
  exact this ⟨g, h⟩

theorem payload_moreByte (g : Nat) (h : g < 128) : payload (moreByte g) = g := by
  rw [payload_eq, moreByte_toNat g h]; omega

theorem continues_moreByte (g : Nat) (h : g < 128) : continues (moreByte g) = true := by
  rw [continues_eq, moreByte_toNat g h]; simp

/-- OR of a value below 2^n and a group shifted by n is their sum. -/
theorem or_shift_eq_add (acc p n : Nat) (h : acc < 2 ^ n) : acc ||| p <<< n = acc + p * 2 ^ n := by
  rw [Nat.or_comm, ← Nat.shiftLeft_add_eq_or_of_lt h, Nat.shiftLeft_eq, Nat.add_comm]

theorem groupSum_lt (bs : List Byte) : groupSum bs < 2 ^ (7 * bs.length) := by
  induction bs with
  | nil => simp [groupSum]
  | cons b bs ih =>
    have := payload_lt b
    simp only [groupSum, List.length_cons, Nat.mul_add, Nat.pow_add]
    omega


theorem drop_of_memRead_none {src : Memory} {a : Nat} (h : memRead src a = none) : src.drop a = [] := by
  simpa [memRead] using h

theorem drop_of_memRead_some {src : Memory} {a : Nat} {b : Byte} (h : memRead src a = some b) :
    src.drop a = b :: src.drop (a + 1) := by
  obtain ⟨ha, rfl⟩ := List.getElem?_eq_some_iff.mp h
  exact List.drop_eq_getElem_cons ha

theorem prefix_cons_iff' (bs : List Byte) (b : Byte) (l : List Byte) :
    bs <+: b :: l ↔ bs = [] ∨ ∃ cs, bs = b :: cs ∧ cs <+: l := by
  cases bs with
  | nil => simp
  | cons c cs => simp [List.cons_prefix_cons, eq_comm, and_comm]

theorem chained_cons (b : Byte) (bs : List Byte) :
    chained (b :: bs) = true ↔ (bs = [] ∧ continues b = false) ∨ (continues b = true ∧ chained bs = true) := by
  cases bs with
  | nil => simp [chained]
  | cons c cs => simp [chained]

theorem chained_ne_nil {bs : List Byte} (h : chained bs = true) : bs ≠ [] := by
  rintro rfl; simp [chained] at h

theorem decU32Loop_ok_iff (src : Memory) (p v n : Nat) : ∀ fuel i acc, fuel + i = 5 → acc < 2 ^ (7 * i) →
    (decU32Loop src p fuel i acc = .ok (v, n) ↔
      ∃ bs, bs <+: src.drop (p + i) ∧ n = i + bs.length ∧ chained bs = true ∧ bs.length ≤ fuel ∧
        v = acc + groupSum bs * 2 ^ (7 * i) ∧ v ≤ 2 ^ 32 - 1) := by
  intro fuel
  induction fuel with
  | zero =>
    intro i acc _ _
    simp only [decU32Loop, reduceCtorEq, false_iff, not_exists]
    rintro bs ⟨_, _, hc, hl, _⟩
    exact chained_ne_nil hc (List.length_eq_zero_iff.mp (by omega))
  | succ fuel ih =>
    intro i acc hi hacc
    have hi5 : i ≤ 4 := by omega
    cases hm : memRead src (p + i) with
    | none =>
      simp only [decU32Loop, hm, reduceCtorEq, false_iff, not_exists, drop_of_memRead_none hm]
      rintro bs ⟨hp, _, hc, _⟩
      exact chained_ne_nil hc (List.prefix_nil.mp hp)
    | some b =>
      have hpl := payload_lt b
      have hor := or_shift_eq_add acc (payload b) (7 * i) hacc
      have hnext : acc + payload b * 2 ^ (7 * i) < 2 ^ (7 * (i + 1)) := by
        interval_cases i <;> norm_num at * <;> omega
      simp only [decU32Loop, hm, hor, drop_of_memRead_some hm, prefix_cons_iff']
      split
      · rename_i hbad
        obtain ⟨rfl, hbad⟩ := hbad
        simp only [reduceCtorEq, false_iff, not_exists]
        rintro bs ⟨rfl | ⟨cs, rfl, _⟩, hn, hc, hl, hv, hr⟩
        · exact chained_ne_nil hc rfl
        · have hcs : cs = [] := List.length_eq_zero_iff.mp (by simp at hl; omega)
          subst hcs
          rcases hbad with hbad | hbad
          · simp [chained, hbad] at hc
          · simp [groupSum] at hv; omega
      · rename_i hgood
        split
        · rename_i hcont
          have hi4 : i < 4 := by
            by_contra h; exact hgood ⟨by omega, .inl hcont⟩
          rw [ih (i + 1) _ (by omega) hnext]
          constructor
          · rintro ⟨cs, hp, hn, hc, hl, hv, hr⟩
            refine ⟨b :: cs, .inr ⟨cs, rfl, hp⟩, by simp; omega, (chained_cons _ _).mpr (.inr ⟨hcont, hc⟩), by simp; omega, ?_, hr⟩
            rw [hv]; simp only [groupSum, Nat.mul_add, Nat.pow_add]; ring
          · rintro ⟨bs, rfl | ⟨cs, rfl, hp⟩, hn, hc, hl, hv, hr⟩
            · exact absurd rfl (chained_ne_nil hc)
            · rw [chained_cons] at hc
              obtain ⟨_, h⟩ | ⟨_, hc⟩ := hc
              · simp [hcont] at h
              · refine ⟨cs, hp, by simp at hn; omega, hc, by simp at hl; omega, ?_, hr⟩
                rw [hv]; simp only [groupSum, Nat.mul_add, Nat.pow_add]; ring
        · rename_i hcont
          have hcont : continues b = false := by simpa using hcont
          simp only [Except.ok.injEq, Prod.mk.injEq]
          constructor
          · rintro ⟨rfl, rfl⟩
            refine ⟨[b], .inr ⟨[], rfl, List.nil_prefix⟩, rfl, by simp [chained, hcont], by simp, by simp [groupSum], ?_⟩
            by_cases h4 : i = 4
            · subst h4
              have : ¬ 0x0F < payload b := fun h => hgood ⟨rfl, .inr h⟩
              norm_num at *; omega
            · have : i < 4 := by omega
              interval_cases i <;> norm_num at * <;> omega
          · rintro ⟨bs, rfl | ⟨cs, rfl, hp⟩, hn, hc, hl, hv, hr⟩
            · exact absurd rfl (chained_ne_nil hc)
            · rw [chained_cons] at hc
              obtain ⟨rfl, _⟩ | ⟨h, _⟩ := hc
              · exact ⟨by rw [hv]; simp [groupSum], by simp at hn; omega⟩
              · simp [hcont] at h


theorem sext_eq (n a : Nat) (hn : 1 ≤ n) (h : a < 2 ^ n) :
    sext n a = if a < 2 ^ (n - 1) then (a : Int) else (a : Int) - 2 ^ n := by
  obtain ⟨m, rfl⟩ : ∃ m, n = m + 1 := ⟨n - 1, by omega⟩
  have : a.testBit m = decide (2 ^ m ≤ a) := by
    rw [Nat.testBit_eq_decide_div_mod_eq]
    by_cases hm : 2 ^ m ≤ a
    · have : a / 2 ^ m = 1 := Nat.div_eq_of_lt_le (by omega) (by rw [Nat.pow_succ] at h; omega)
      simp [this, hm]
    · have : a / 2 ^ m = 0 := Nat.div_eq_of_lt (by omega)
      simp [this, hm]
  simp only [sext, Nat.add_sub_cancel, this, decide_eq_true_eq]
  by_cases hm : 2 ^ m ≤ a <;> simp [hm, Nat.not_lt.mpr, Nat.lt_of_not_le]

theorem signedWindow_eq (b : Byte) :
    signedWindow b = (decide (payload b ≤ 0x07) || decide (0x78 ≤ payload b)) := by
  revert b; decide

theorem decI32Loop_ok_iff (src : Memory) (p : Nat) (v : Int) (n : Nat) : ∀ fuel i acc, fuel + i = 5 → acc < 2 ^ (7 * i) →
    (decI32Loop src p fuel i acc = .ok (v, n) ↔
      ∃ bs, bs <+: src.drop (p + i) ∧ n = i + bs.length ∧ chained bs = true ∧ bs.length ≤ fuel ∧
        v = sext (7 * n) (acc + groupSum bs * 2 ^ (7 * i)) ∧ -2 ^ 31 ≤ v ∧ v ≤ 2 ^ 31 - 1) := by
  intro fuel
  induction fuel with
  | zero =>
    intro i acc _ _
    simp only [decI32Loop, reduceCtorEq, false_iff, not_exists]
    rintro bs ⟨_, _, hc, hl, _⟩
    exact chained_ne_nil hc (List.length_eq_zero_iff.mp (by omega))
  | succ fuel ih =>
    intro i acc hi hacc
    have hi5 : i ≤ 4 := by omega
    cases hm : memRead src (p + i) with
    | none =>
      simp only [decI32Loop, hm, reduceCtorEq, false_iff, not_exists, drop_of_memRead_none hm]
      rintro bs ⟨hp, _, hc, _⟩
      exact chained_ne_nil hc (List.prefix_nil.mp hp)
    | some b =>
      have hpl := payload_lt b
      have hor := or_shift_eq_add acc (payload b) (7 * i) hacc
      have hnext : acc + payload b * 2 ^ (7 * i) < 2 ^ (7 * (i + 1)) := by
        interval_cases i <;> norm_num at * <;> omega
      have hsx := sext_eq (7 * (i + 1)) _ (by omega) hnext
      have hw := signedWindow_eq b
      simp only [decI32Loop, hm, hor, drop_of_memRead_some hm, prefix_cons_iff']
      split
      · rename_i hbad
        obtain ⟨rfl, hbad⟩ := hbad
        simp only [reduceCtorEq, false_iff, not_exists]
        rintro bs ⟨rfl | ⟨cs, rfl, _⟩, hn, hc, hl, hv, hr1, hr2⟩
        · exact chained_ne_nil hc rfl
        · have hcs : cs = [] := List.length_eq_zero_iff.mp (by simp at hl; omega)
          subst hcs
          rcases hbad with hbad | hbad
          · simp [chained, hbad] at hc
          · rw [hw] at hbad
            simp only [Bool.or_eq_false_iff, decide_eq_false_iff_not, not_le] at hbad
            simp only [List.length_singleton] at hn
            simp only [hn, groupSum, Nat.mul_zero, Nat.add_zero] at hv
            norm_num at hv hsx hr1 hr2
            rw [hv, hsx] at hr1 hr2
            split at hr1 <;> omega
      · rename_i hgood
        split
        · rename_i hcont
          have hi4 : i < 4 := by
            by_contra h; exact hgood ⟨by omega, .inl hcont⟩
          rw [ih (i + 1) _ (by omega) hnext]
          have hsum : ∀ cs, acc + payload b * 2 ^ (7 * i) + groupSum cs * 2 ^ (7 * (i + 1)) =
              acc + groupSum (b :: cs) * 2 ^ (7 * i) := by
            intro cs; simp only [groupSum, Nat.mul_add, Nat.pow_add]; ring
          constructor
          · rintro ⟨cs, hp, hn, hc, hl, hv, hr⟩
            exact ⟨b :: cs, .inr ⟨cs, rfl, hp⟩, by simp; omega, (chained_cons _ _).mpr (.inr ⟨hcont, hc⟩),
              by simp; omega, hsum cs ▸ hv, hr⟩
          · rintro ⟨bs, rfl | ⟨cs, rfl, hp⟩, hn, hc, hl, hv, hr⟩
            · exact absurd rfl (chained_ne_nil hc)
            · rw [chained_cons] at hc
              obtain ⟨_, h⟩ | ⟨_, hc⟩ := hc
              · simp [hcont] at h
              · exact ⟨cs, hp, by simp at hn; omega, hc, by simp at hl; omega, (hsum cs).symm ▸ hv, hr⟩
        · rename_i hcont
          have hcont : continues b = false := by simpa using hcont
          simp only [Except.ok.injEq, Prod.mk.injEq]
          constructor
          · rintro ⟨rfl, rfl⟩
            refine ⟨[b], .inr ⟨[], rfl, List.nil_prefix⟩, rfl, by simp [chained, hcont], by simp, by simp [groupSum], ?_⟩
            rw [hsx]
            by_cases h4 : i = 4
            · subst h4
              have : signedWindow b = true := by
                cases h : signedWindow b with
                | true => rfl
                | false => exact absurd ⟨rfl, .inr h⟩ hgood
              rw [hw] at this
              simp only [Bool.or_eq_true, decide_eq_true_eq] at this
              norm_num at *
              split <;> omega
            · have : i < 4 := by omega
              interval_cases i <;> norm_num at * <;> split <;> omega
          · rintro ⟨bs, rfl | ⟨cs, rfl, hp⟩, hn, hc, hl, hv, hr⟩
            · exact absurd rfl (chained_ne_nil hc)
            · rw [chained_cons] at hc
              obtain ⟨rfl, _⟩ | ⟨h, _⟩ := hc
              · simp only [List.length_singleton] at hn
                exact ⟨by rw [hv, hn]; simp [groupSum], hn.symm⟩
              · simp [hcont] at h

theorem encU32Loop_spec : ∀ fuel v, 1 ≤ fuel → v < 2 ^ (7 * fuel) →
    chained (encU32Loop fuel v) = true ∧ groupSum (encU32Loop fuel v) = v ∧
    (encU32Loop fuel v).length ≤ fuel ∧
    (∀ n, 1 ≤ n → v < 2 ^ (7 * n) → (encU32Loop fuel v).length ≤ n) ∧
    ((encU32Loop fuel v).getLast? = some 0#8 → v = 0) := by
  intro fuel
  induction fuel with
  | zero => intro v h; omega
  | succ fuel ih =>
    intro v _ hv
    have hg : v % 128 < 128 := Nat.mod_lt _ (by omega)
    unfold encU32Loop
    split
    · rename_i h0
      refine ⟨by simp [chained, continues_lastByte _ hg], by simp [groupSum, payload_lastByte _ hg]; omega, by simp, fun n hn _ => by simpa using hn, ?_⟩
      intro hl
      have : lastByte (v % 128) = 0#8 := by simpa using hl
      have := congrArg payload this
      rw [payload_lastByte _ hg] at this
      simp [payload] at this; omega
    · rename_i h0
      have hf : 1 ≤ fuel := by
        by_contra h
        have : fuel = 0 := by omega
        subst this; norm_num at hv; omega
      have hv' : v / 128 < 2 ^ (7 * fuel) := by
        rw [Nat.mul_add, Nat.pow_add] at hv; exact Nat.div_lt_of_lt_mul (by rw [Nat.mul_comm]; exact hv)
      obtain ⟨hc, hs, hl, hm, hz⟩ := ih (v / 128) hf hv'
      refine ⟨(chained_cons _ _).mpr (.inr ⟨continues_moreByte _ hg, hc⟩),
        by simp only [groupSum, payload_moreByte _ hg, hs]; omega, by simp; omega, ?_, ?_⟩
      · intro n hn hvn
        obtain ⟨n, rfl⟩ : ∃ m, n = m + 1 := ⟨n - 1, by omega⟩
        have hn' : 1 ≤ n := by
          by_contra h
          have : n = 0 := by omega
          subst this; norm_num at hvn; omega
        have := hm n hn' (by rw [Nat.mul_add, Nat.pow_add] at hvn; exact Nat.div_lt_of_lt_mul (by rw [Nat.mul_comm]; exact hvn))
        simp; omega
      · intro hlast
        have hne := chained_ne_nil hc
        exfalso; apply h0; apply hz
        cases h : encU32Loop fuel (v / 128) with
        | nil => exact absurd h hne
        | cons a l => rwa [h, List.getLast?_cons_cons] at hlast

theorem sext_cons (g S n : Nat) (hg : g < 128) (hn : 1 ≤ n) (hS : S < 2 ^ n) :
    sext (7 + n) (g + 128 * S) = g + 128 * sext n S := by
  have h1 : g + 128 * S < 2 ^ (7 + n) := by rw [Nat.pow_add]; omega
  rw [sext_eq _ _ (by omega) h1, sext_eq _ _ hn hS]
  obtain ⟨m, rfl⟩ : ∃ m, n = m + 1 := ⟨n - 1, by omega⟩
  have e1 : 7 + (m + 1) - 1 = 7 + m := by omega
  rw [e1, Nat.pow_add, Nat.add_sub_cancel]
  have e2 : (2 : Int) ^ (7 + (m + 1)) = 128 * 2 ^ (m + 1) := by rw [pow_add]; norm_num
  rw [e2]
  split <;> split <;> push_cast <;> omega

theorem int_div_bounds (v : Int) (m : Nat) (h1 : -2 ^ (7 + m) ≤ v) (h2 : v ≤ 2 ^ (7 + m) - 1) :
    -2 ^ m ≤ v / 128 ∧ v / 128 ≤ 2 ^ m - 1 := by
  rw [pow_add] at h1 h2
  constructor <;> omega

theorem groupSign_eq (g : Nat) (h : g < 128) : groupSign g = decide (64 ≤ g) := by
  have : ∀ g : Fin 128, groupSign g.1 = decide (64 ≤ g.1) := by decide
  exact this ⟨g, h⟩

theorem encI32Loop_spec : ∀ fuel v, 1 ≤ fuel → -2 ^ (7 * fuel - 1) ≤ v → v ≤ 2 ^ (7 * fuel - 1) - 1 →
    chained (encI32Loop fuel v) = true ∧
    sext (7 * (encI32Loop fuel v).length) (groupSum (encI32Loop fuel v)) = v ∧
    (encI32Loop fuel v).length ≤ fuel ∧
    (∀ n : Nat, 1 ≤ n → -2 ^ (7 * n - 1) ≤ v → v ≤ 2 ^ (7 * n - 1) - 1 → (encI32Loop fuel v).length ≤ n) := by
  intro fuel
  induction fuel with
  | zero => intro v h; omega
  | succ fuel ih =>
    intro v _ hlo hhi
    obtain ⟨g, hgv⟩ : ∃ g : Nat, v % 128 = g := ⟨(v % 128).toNat, by omega⟩
    have hg : g < 128 := by omega
    have hsg := groupSign_eq g hg
    unfold encI32Loop
    simp only [hgv, Int.toNat_natCast, hsg, decide_eq_false_iff_not, decide_eq_true_eq, not_le]
    split
    · rename_i hend
      refine ⟨by simp [chained, continues_lastByte _ hg], ?_, by simp, fun n hn _ _ => by simpa using hn⟩
      have hb := sext_eq 7 g (by omega) hg
      simp only [List.length_singleton, groupSum, payload_lastByte _ hg, Nat.mul_one, Nat.mul_zero, Nat.add_zero, hb]
      norm_num
      split <;> omega
    · rename_i hend
      have hf : 1 ≤ fuel := by
        by_contra h
        have : fuel = 0 := by omega
        subst this; norm_num at hlo hhi; omega
      have hdb : ∀ n : Nat, 1 ≤ n → -2 ^ (7 * (n + 1) - 1) ≤ v → v ≤ 2 ^ (7 * (n + 1) - 1) - 1 →
          -2 ^ (7 * n - 1) ≤ v / 128 ∧ v / 128 ≤ 2 ^ (7 * n - 1) - 1 := by
        intro n hn h1 h2
        have : 7 * (n + 1) - 1 = 7 + (7 * n - 1) := by omega
        rw [this] at h1 h2
        exact int_div_bounds v _ h1 h2
      obtain ⟨hlo', hhi'⟩ := hdb fuel hf hlo hhi
      obtain ⟨hc, hs, hl, hm⟩ := ih (v / 128) hf hlo' hhi'
      have hlen : 1 ≤ (encI32Loop fuel (v / 128)).length := List.length_pos_iff.mpr (chained_ne_nil hc)
      refine ⟨(chained_cons _ _).mpr (.inr ⟨continues_moreByte _ hg, hc⟩), ?_, by simp; omega, ?_⟩
      · simp only [groupSum, payload_moreByte _ hg, List.length_cons, Nat.mul_add, Nat.mul_one]
        rw [Nat.add_comm, sext_cons g _ _ hg (by omega) (groupSum_lt _), hs]
        omega
      · intro n hn h1 h2
        obtain ⟨n, rfl⟩ : ∃ m, n = m + 1 := ⟨n - 1, by omega⟩
        have hn' : 1 ≤ n := by
          by_contra h
          have : n = 0 := by omega
          subst this; norm_num at h1 h2; omega
        have := hm n hn' (hdb n hn' h1 h2).1 (hdb n hn' h1 h2).2
        simp; omega

/-- The sum as R69 writes it: group `k` of a byte list weighs `2^(7k)`. -/
theorem groupSum_append (bs : List Byte) (b : Byte) :
    groupSum (bs ++ [b]) = groupSum bs + payload b * 2 ^ (7 * bs.length) := by
  induction bs with
  | nil => simp [groupSum]
  | cons c bs ih =>
    simp only [List.cons_append, groupSum, ih, List.length_cons, Nat.mul_add, Nat.pow_add]
    ring

/-! The two failures of each reading loop. -/

theorem decU32Loop_incomplete_iff (src : Memory) (p : Nat) : ∀ fuel i acc, fuel + i = 5 →
    (decU32Loop src p fuel i acc = .error .incompleteNumber ↔
      (src.drop (p + i)).length + i ≤ 4 ∧ ∀ b ∈ src.drop (p + i), continues b = true) := by
  intro fuel
  induction fuel with
  | zero =>
    intro i acc hi
    simp only [decU32Loop, Except.error.injEq, reduceCtorEq, false_iff]
    rintro ⟨h, _⟩; omega
  | succ fuel ih =>
    intro i acc hi
    cases hm : memRead src (p + i) with
    | none => simp [decU32Loop, hm, drop_of_memRead_none hm]; omega
    | some b =>
      rw [drop_of_memRead_some hm]
      simp only [decU32Loop, hm, List.length_cons, List.mem_cons, forall_eq_or_imp]
      split
      · rename_i hb; simp; omega
      · split
        · rename_i hc; rw [ih _ _ (by omega)]; simp [hc, Nat.add_assoc]; intro _; omega
        · rename_i hc; simp [hc]

theorem decI32Loop_incomplete_iff (src : Memory) (p : Nat) : ∀ fuel i acc, fuel + i = 5 →
    (decI32Loop src p fuel i acc = .error .incompleteNumber ↔
      (src.drop (p + i)).length + i ≤ 4 ∧ ∀ b ∈ src.drop (p + i), continues b = true) := by
  intro fuel
  induction fuel with
  | zero =>
    intro i acc hi
    simp only [decI32Loop, Except.error.injEq, reduceCtorEq, false_iff]
    rintro ⟨h, _⟩; omega
  | succ fuel ih =>
    intro i acc hi
    cases hm : memRead src (p + i) with
    | none => simp [decI32Loop, hm, drop_of_memRead_none hm]; omega
    | some b =>
      rw [drop_of_memRead_some hm]
      simp only [decI32Loop, hm, List.length_cons, List.mem_cons, forall_eq_or_imp]
      split
      · rename_i hb; simp; omega
      · split
        · rename_i hc; rw [ih _ _ (by omega)]; simp [hc, Nat.add_assoc]; intro _; omega
        · rename_i hc; simp [hc]

theorem fifthByte_bad_unsigned_iff (b : Byte) : (continues b = true ∨ 0x0F < payload b) ↔ 0x10 ≤ b.toNat := by revert b; decide
theorem fifthByte_bad_signed_iff (b : Byte) : (continues b = true ∨ signedWindow b = false) ↔
    ¬ (b.toNat ≤ 0x07 ∨ (0x78 ≤ b.toNat ∧ b.toNat ≤ 0x7F)) := by revert b; decide

theorem decU32Loop_outOfRange_iff (src : Memory) (p : Nat) : ∀ fuel i acc, 1 ≤ fuel → fuel + i = 5 →
    (decU32Loop src p fuel i acc = .error .outOfRange ↔
      (∀ b ∈ (src.drop (p + i)).take (4 - i), continues b = true) ∧ ∃ b, src[p + 4]? = some b ∧ 0x10 ≤ b.toNat) := by
  intro fuel
  induction fuel with
  | zero => intro i acc h; omega
  | succ fuel ih =>
    intro i acc _ hi
    cases hm : memRead src (p + i) with
    | none =>
      have : src[p+4]? = none := by
        have := drop_of_memRead_none hm
        rw [List.drop_eq_nil_iff] at this
        exact List.getElem?_eq_none (by omega)
      simp [decU32Loop, hm, this]
    | some b =>
      simp only [decU32Loop, hm]
      by_cases h4 : i = 4
      · subst h4
        have hm' : src[p + 4]? = some b := hm
        simp only [true_and, fifthByte_bad_unsigned_iff, hm', Nat.sub_self, List.take_zero, List.not_mem_nil, Option.some.injEq, exists_eq_left']
        split
        · simp [*]
        · split
          · rename_i h1 h2; exact absurd ((fifthByte_bad_unsigned_iff b).mp (.inl h2)) h1
          · simp [*]
      · rw [if_neg (by simp [h4]), drop_of_memRead_some hm, show 4 - i = (4 - (i+1)) + 1 by omega, List.take_succ_cons]
        simp only [List.mem_cons, forall_eq_or_imp]
        split
        · rename_i hc; rw [ih _ _ (by omega) (by omega)]; simp [hc, Nat.add_assoc]
        · rename_i hc; simp [hc]
theorem decI32Loop_outOfRange_iff (src : Memory) (p : Nat) : ∀ fuel i acc, 1 ≤ fuel → fuel + i = 5 →
    (decI32Loop src p fuel i acc = .error .outOfRange ↔
      (∀ b ∈ (src.drop (p + i)).take (4 - i), continues b = true) ∧
      ∃ b, src[p + 4]? = some b ∧ ¬ (b.toNat ≤ 0x07 ∨ (0x78 ≤ b.toNat ∧ b.toNat ≤ 0x7F))) := by
  intro fuel
  induction fuel with
  | zero => intro i acc h; omega
  | succ fuel ih =>
    intro i acc _ hi
    cases hm : memRead src (p + i) with
    | none =>
      have : src[p+4]? = none := by
        have := drop_of_memRead_none hm
        rw [List.drop_eq_nil_iff] at this
        exact List.getElem?_eq_none (by omega)
      simp [decI32Loop, hm, this]
    | some b =>
      simp only [decI32Loop, hm]
      by_cases h4 : i = 4
      · subst h4
        have hm' : src[p + 4]? = some b := hm
        simp only [true_and, fifthByte_bad_signed_iff, hm', Nat.sub_self, List.take_zero, List.not_mem_nil, Option.some.injEq, exists_eq_left']
        split
        · simp [*]
        · split
          · rename_i h1 h2; exact absurd ((fifthByte_bad_signed_iff b).mp (.inl h2)) h1
          · simp [*]
      · rw [if_neg (by simp [h4]), drop_of_memRead_some hm, show 4 - i = (4 - (i+1)) + 1 by omega, List.take_succ_cons]
        simp only [List.mem_cons, forall_eq_or_imp]
        split
        · rename_i hc; rw [ih _ _ (by omega) (by omega)]; simp [hc, Nat.add_assoc]
        · rename_i hc; simp [hc]

end Sys2Proof.Machine
end

