-- ==== Sys2Proof/Laws/Exec.lean ====
section
/-! SUPPORT. What the shared operations, the commands and a step can do, said once. -/

namespace Sys2Proof.Machine

/-- Everything an append command's common end can do (R102, R105, R152, R203). -/
theorem appendOrRaise_cases (r : Except ErrKind (List Byte)) (s : State) :
    (∃ k, r = .error k ∧ appendOrRaise r s = raise k s) ∨
    (∃ bs, r = .ok bs ∧ overCapacity s.cfg.encMaxBytes (s.encLen + bs.length) = true ∧
      appendOrRaise r s = raise .capacityExceeded s) ∨
    (∃ bs, r = .ok bs ∧ overCapacity s.cfg.encMaxBytes (s.encLen + bs.length) = false ∧
      appendOrRaise r s = respond .ok .none (bufAppend bs s)) := by
  unfold appendOrRaise
  cases r with
  | error k => exact .inl ⟨k, rfl, rfl⟩
  | ok bs =>
    by_cases h : overCapacity s.cfg.encMaxBytes (s.encLen + bs.length) = true
    · exact .inr (.inl ⟨bs, rfl, h, by simp [h]⟩)
    · exact .inr (.inr ⟨bs, rfl, by simpa using h, by simp [h]⟩)

/-- Everything a read command's common frame can do (R123, R126, R153, R204, R210). -/
theorem readOrRaise_cases (r : Except ReadErr (Nat × Result)) (s : State) :
    (∃ k, s.decState = .failed k ∧ readOrRaise r s = raise (readErrKind k) s) ∨
    (∃ k, s.decState = .ok ∧ r = .error k ∧ readOrRaise r s = raiseRead k s) ∨
    (∃ n res, s.decState = .ok ∧ r = .ok (n, res) ∧
      readOrRaise r s = respond .ok res { s with decPos := s.decPos + n }) := by
  unfold readOrRaise
  cases hd : s.decState with
  | failed k => exact .inl ⟨k, rfl, by simp⟩
  | ok =>
    cases r with
    | error k => exact .inr (.inl ⟨k, rfl, rfl, by simp⟩)
    | ok x => exact .inr (.inr ⟨x.1, x.2, rfl, rfl, by simp⟩)

/-- Everything a step can do that answers a next state (R60, R62, R233, R31, R218). -/
theorem step_cases {s t : State} (h : step s = .next t) :
    (s.hostInputs = [] ∧ t = s) ∨
    (∃ r rest, s.hostInputs = .reset r :: rest ∧ t = applyReset r { s with hostInputs := rest }) ∨
    (∃ o rest, s.hostInputs = .read o :: rest ∧ readOutput o s ≠ none ∧ t = { s with hostInputs := rest }) ∨
    (∃ w p rest e, s.hostInputs = .issue w p :: rest ∧ decode w = .error e ∧
      t = illegalCommand { s with hostInputs := rest, ports := p }) ∨
    (∃ w p rest i, s.hostInputs = .issue w p :: rest ∧ decode w = .ok i ∧
      exec i { s with hostInputs := rest, ports := p } = .next t) := by
  unfold step at h
  cases hi : s.hostInputs with
  | nil => rw [hi] at h; cases h; exact .inl ⟨rfl, rfl⟩
  | cons x rest =>
    rw [hi] at h
    cases x with
    | reset r => cases h; exact .inr (.inl ⟨r, rest, rfl, rfl⟩)
    | read o =>
      have hro : readOutput o { s with hostInputs := rest } = readOutput o s := by cases o <;> rfl
      simp only [takeInput, hostRead, hro] at h
      cases hr : readOutput o s with
      | none => simp [hr] at h
      | some v => simp only [hr, Host.Outcome.next.injEq] at h; exact .inr (.inr (.inl ⟨o, rest, rfl, by simp [hr], h.symm⟩))
    | issue w p =>
      simp only [takeInput, issueWord] at h
      cases hd : decode w with
      | error e => rw [hd] at h; cases h; exact .inr (.inr (.inr (.inl ⟨w, p, rest, e, rfl, hd, rfl⟩)))
      | ok i => rw [hd] at h; exact .inr (.inr (.inr (.inr ⟨w, p, rest, i, rfl, hd, h⟩)))

/-- `decode` word by word (R61). -/
theorem decode_ok_iff (w : Byte) (i : Instr) : decode w = .ok i ↔ w = encode i := by
  cases i <;> revert w <;> decide

/-- What an append command hands to the common end (R102, R105, R152); nothing for the other commands. -/
def appendOf (i : Instr) (s : State) : Except ErrKind (List Byte) :=
  match i with
  | .encU32 => bytesOfU32 s.ports.numIn
  | .encI32 => bytesOfI32 s.ports.numIn
  | .encPstr => bytesOfText s.ports.textIn
  | .encView | .decLoad | .decU32 | .decI32 | .decPstr => .ok []

/-- What a read command hands to the common frame (R123, R126, R153); nothing for the other commands. -/
def readOf (i : Instr) (s : State) : Except ReadErr (Nat × Result) :=
  match i with
  | .decU32 => readU32 s.decSrc s.decPos
  | .decI32 => readI32 s.decSrc s.decPos
  | .decPstr => readPstr s.decSrc s.decLen s.decPos
  | .encU32 | .encI32 | .encPstr | .encView | .decLoad => .ok (0, .none)

/-- An append command is the common end applied to its bytes. -/
theorem exec_append {i : Instr} (hi : i ∈ appendCommands) {s t : State} (h : exec i s = .next t) :
    t = appendOrRaise (appendOf i s) s := by
  simp only [appendCommands, List.mem_cons, List.not_mem_nil, or_false] at hi
  rcases hi with rfl | rfl | rfl <;> simp only [exec, execEncU32, execEncI32, execEncPstr] at h
  · exact (Host.Outcome.next.inj h).symm
  · exact (Host.Outcome.next.inj h).symm
  · split at h
    · exact (Host.Outcome.next.inj h).symm
    · cases h

/-- A read command is the common frame applied to what it reads. -/
theorem exec_read {i : Instr} (hi : i ∈ readCommands) (s : State) : exec i s = .next (readOrRaise (readOf i s) s) := by
  simp only [readCommands, List.mem_cons, List.not_mem_nil, or_false] at hi
  rcases hi with rfl | rfl | rfl <;> rfl

/-- Everything a command can do that answers a next state: the one record update each outcome makes. -/
theorem exec_next_cases {i : Instr} {s t : State} (h : exec i s = .next t) :
    (∃ k, i ∈ appendCommands ∧ appendOf i s = .error k ∧ t = raise k s) ∨
    (∃ bs, i ∈ appendCommands ∧ appendOf i s = .ok bs ∧
      overCapacity s.cfg.encMaxBytes (s.encLen + bs.length) = true ∧ t = raise .capacityExceeded s) ∨
    (∃ bs, i ∈ appendCommands ∧ appendOf i s = .ok bs ∧
      overCapacity s.cfg.encMaxBytes (s.encLen + bs.length) = false ∧ t = respond .ok .none (bufAppend bs s)) ∨
    (i = .encView ∧ t = respond .ok (.bytes (memSlice s.encBuf 0 s.encLen)) s) ∨
    (i = .decLoad ∧ overCapacity s.cfg.decMaxBytes s.ports.bytesIn.length = true ∧ t = raise .capacityExceeded s) ∨
    (i = .decLoad ∧ overCapacity s.cfg.decMaxBytes s.ports.bytesIn.length = false ∧ t = respond .ok .none
      { s with decSrc := s.ports.bytesIn, decLen := s.ports.bytesIn.length, decPos := 0, decState := .ok }) ∨
    (∃ k, i ∈ readCommands ∧ s.decState = .failed k ∧ t = raise (readErrKind k) s) ∨
    (∃ k, i ∈ readCommands ∧ s.decState = .ok ∧ readOf i s = .error k ∧ t = raiseRead k s) ∨
    (∃ n res, i ∈ readCommands ∧ s.decState = .ok ∧ readOf i s = .ok (n, res) ∧
      t = respond .ok res { s with decPos := s.decPos + n }) := by
  have hcases : i ∈ appendCommands ∨ i = .encView ∨ i = .decLoad ∨ i ∈ readCommands := by cases i <;> decide
  rcases hcases with hi | rfl | rfl | hi
  · have ht := exec_append hi h
    obtain ⟨k, hr, he⟩ | ⟨bs, hr, ho, he⟩ | ⟨bs, hr, ho, he⟩ := appendOrRaise_cases (appendOf i s) s
    · exact .inl ⟨k, hi, hr, ht.trans he⟩
    · exact .inr (.inl ⟨bs, hi, hr, ho, ht.trans he⟩)
    · exact .inr (.inr (.inl ⟨bs, hi, hr, ho, ht.trans he⟩))
  · exact .inr (.inr (.inr (.inl ⟨rfl, (Host.Outcome.next.inj h).symm⟩)))
  · simp only [exec, execDecLoad] at h
    split at h
    · exact .inr (.inr (.inr (.inr (.inl ⟨rfl, ‹_›, (Host.Outcome.next.inj h).symm⟩))))
    · exact .inr (.inr (.inr (.inr (.inr (.inl ⟨rfl, Bool.eq_false_iff.mpr ‹_›, (Host.Outcome.next.inj h).symm⟩)))))
  · have ht := (Host.Outcome.next.inj ((exec_read hi s).symm.trans h)).symm
    obtain ⟨k, hd, he⟩ | ⟨k, hd, hr, he⟩ | ⟨n, res, hd, hr, he⟩ := readOrRaise_cases (readOf i s) s
    · exact .inr (.inr (.inr (.inr (.inr (.inr (.inl ⟨k, hi, hd, ht.trans he⟩))))))
    · exact .inr (.inr (.inr (.inr (.inr (.inr (.inr (.inl ⟨k, hi, hd, hr, ht.trans he⟩)))))))
    · exact .inr (.inr (.inr (.inr (.inr (.inr (.inr (.inr ⟨n, res, hi, hd, hr, ht.trans he⟩)))))))

/-- The bytes an unsigned integer read consumes: 1 to 5, within the source, and a value in range. -/
theorem decU32_bounds {src : Memory} {p v n : Nat} (h : decU32 src p = .ok (v, n)) :
    1 ≤ n ∧ n ≤ 5 ∧ p + n ≤ src.length ∧ v ≤ 2 ^ 32 - 1 := by
  rw [decU32, decU32Loop_ok_iff src p v n maxGroups 0 0 rfl (by norm_num)] at h
  obtain ⟨bs, hp, hn, hc, hl, _, hv⟩ := h
  have h1 := List.length_pos_iff.mpr (chained_ne_nil hc)
  have h2 := hp.length_le
  rw [List.length_drop] at h2
  exact ⟨by omega, by unfold maxGroups at hl; omega, by omega, hv⟩

/-- The bytes a signed integer read consumes: 1 to 5, within the source, and a value in range. -/
theorem decI32_bounds {src : Memory} {p n : Nat} {v : Int} (h : decI32 src p = .ok (v, n)) :
    1 ≤ n ∧ n ≤ 5 ∧ p + n ≤ src.length ∧ -2 ^ 31 ≤ v ∧ v ≤ 2 ^ 31 - 1 := by
  rw [decI32, decI32Loop_ok_iff src p v n maxGroups 0 0 rfl (by norm_num)] at h
  obtain ⟨bs, hp, hn, hc, hl, _, hv⟩ := h
  have h1 := List.length_pos_iff.mpr (chained_ne_nil hc)
  have h2 := hp.length_le
  rw [List.length_drop] at h2
  exact ⟨by omega, by unfold maxGroups at hl; omega, by omega, hv⟩

/-- What a string read consumes and gives: a positive number of bytes within the source, and an admitted text. -/
theorem readPstr_ok {src : Memory} {len p n : Nat} {res : Result} (h : readPstr src len p = .ok (n, res)) :
    1 ≤ n ∧ p + n ≤ len ∧ ∃ t, res = .text t ∧ textAdmitted t = true := by
  unfold readPstr at h
  split at h
  · cases h
  · rename_i l k hd
    split at h
    · cases h
    · split at h
      · cases h
      · rename_i hle t ht
        cases h
        have := (decU32_bounds hd).1
        refine ⟨by omega, by omega, t, rfl, ?_⟩
        exact ((utf8DecodeLoop_iff _ _ t (Nat.le_refl _)).mp ht).1

/-- What a successful read consumes and gives, whichever command it is. -/
theorem readOf_ok {i : Instr} {s : State} {n : Nat} {res : Result} (hi : i ∈ readCommands)
    (h : readOf i s = .ok (n, res)) (hl : s.decLen = s.decSrc.length) :
    1 ≤ n ∧ s.decPos + n ≤ s.decLen ∧
    ((i ∈ [Instr.decU32, .decI32] ∧ ∃ w, res = .word w) ∨ (i = .decPstr ∧ ∃ t, res = .text t ∧ textAdmitted t = true)) := by
  simp only [readCommands, List.mem_cons, List.not_mem_nil, or_false] at hi
  rcases hi with rfl | rfl | rfl
  · simp only [readOf, readU32] at h
    split at h <;> cases h
    rename_i v hd
    obtain ⟨h1, _, h2, _⟩ := decU32_bounds hd
    exact ⟨h1, by omega, .inl ⟨by decide, _, rfl⟩⟩
  · simp only [readOf, readI32] at h
    split at h <;> cases h
    rename_i v hd
    obtain ⟨h1, _, h2, _⟩ := decI32_bounds hd
    exact ⟨h1, by omega, .inl ⟨by decide, _, rfl⟩⟩
  · obtain ⟨h1, h2, h3⟩ := readPstr_ok h
    exact ⟨h1, h2, .inr ⟨rfl, h3⟩⟩

/-! What the shared operations do not read: an element they neither read nor write may be changed before or after. -/

theorem appendOrRaise_ports (r : Except ErrKind (List Byte)) (s : State) (p : Ports) :
    appendOrRaise r { s with ports := p } = { appendOrRaise r s with ports := p } := by
  unfold appendOrRaise; split <;> (try split) <;> rfl

theorem appendOrRaise_dec (r : Except ErrKind (List Byte)) (s : State) (src : Memory) (len pos : Nat) (d : DecState) :
    appendOrRaise r { s with decSrc := src, decLen := len, decPos := pos, decState := d } =
      { appendOrRaise r s with decSrc := src, decLen := len, decPos := pos, decState := d } := by
  unfold appendOrRaise; split <;> (try split) <;> rfl

theorem appendOrRaise_response (r : Except ErrKind (List Byte)) (s : State) (st : Status) (w : Option Word)
    (t : Option Text) (b : Option (List Byte)) :
    appendOrRaise r { s with respStatus := st, respWord := w, respText := t, respBytes := b } = appendOrRaise r s := by
  unfold appendOrRaise; split <;> (try split) <;> rfl

theorem readOrRaise_ports (r : Except ReadErr (Nat × Result)) (s : State) (p : Ports) :
    readOrRaise r { s with ports := p } = { readOrRaise r s with ports := p } := by
  rcases s with ⟨_, _, _, _, _, _ | k, _, _, _, _, _, _, _⟩ <;> (try rfl)
  unfold readOrRaise; simp only []; split <;> rfl

theorem readOrRaise_enc (r : Except ReadErr (Nat × Result)) (s : State) (buf : Memory) (len : Nat) :
    readOrRaise r { s with encBuf := buf, encLen := len } = { readOrRaise r s with encBuf := buf, encLen := len } := by
  rcases s with ⟨_, _, _, _, _, _ | k, _, _, _, _, _, _, _⟩ <;> (try rfl)
  unfold readOrRaise; simp only []; split <;> rfl

theorem readOrRaise_response (r : Except ReadErr (Nat × Result)) (s : State) (st : Status) (w : Option Word)
    (t : Option Text) (b : Option (List Byte)) :
    readOrRaise r { s with respStatus := st, respWord := w, respText := t, respBytes := b } = readOrRaise r s := by
  rcases s with ⟨_, _, _, _, _, _ | k, _, _, _, _, _, _, _⟩ <;> rfl

end Sys2Proof.Machine
end

