-- ==== Sys2Proof/Laws/PerInstr.lean ====
section
/-! SUPPORT. One statement about every command as syntax: the fields of its word. -/

namespace Sys2Proof.Laws.CommandWord

/-- The word of a command carries its unit nibble in bits 7:4 and its function nibble in bits 3:0 (R60). -/
def Statement (i : Instr) : Prop := unitField (encode i) = unitCode i ∧ funcField (encode i) = funcCode i

theorem encU32 : Statement .encU32 := by unfold Statement; decide
theorem encI32 : Statement .encI32 := by unfold Statement; decide
theorem encPstr : Statement .encPstr := by unfold Statement; decide
theorem encView : Statement .encView := by unfold Statement; decide
theorem decLoad : Statement .decLoad := by unfold Statement; decide
theorem decU32 : Statement .decU32 := by unfold Statement; decide
theorem decI32 : Statement .decI32 := by unfold Statement; decide
theorem decPstr : Statement .decPstr := by unfold Statement; decide

end Sys2Proof.Laws.CommandWord
end

