-- ==== Sys2Proof/Machine/Assembler.lean ====
section
/-! DEFINITION. The spec's assembler syntax (spec/30_encoding.md R74): one command a line, a mnemonic of R61 (or the
source's method name for it), then its operand. A line assembles to its command word and the value on its operand port.
A line is a list of characters. What R74 does not settle about spelling is in log entry 8. -/

namespace Sys2Proof.Machine

/-- The mnemonics of R61 and, where the source has one, the method name that is an alias of it. -/
def mnemonicNames : List (List Char × Instr) :=
  [(['E', 'N', 'C', '.', 'U', '3', '2'], .encU32),
   (['E', 'N', 'C', '.', 'I', '3', '2'], .encI32),
   (['E', 'N', 'C', '.', 'P', 'S', 'T', 'R'], .encPstr),
   (['E', 'N', 'C', '.', 'V', 'I', 'E', 'W'], .encView),
   (['D', 'E', 'C', '.', 'L', 'O', 'A', 'D'], .decLoad),
   (['D', 'E', 'C', '.', 'U', '3', '2'], .decU32),
   (['D', 'E', 'C', '.', 'I', '3', '2'], .decI32),
   (['D', 'E', 'C', '.', 'P', 'S', 'T', 'R'], .decPstr),
   (['a', 'p', 'p', 'e', 'n', 'd', 'U', 'i', 'n', 't', '3', '2'], .encU32),
   (['a', 'p', 'p', 'e', 'n', 'd', 'I', 'n', 't', '3', '2'], .encI32),
   (['a', 'p', 'p', 'e', 'n', 'd', 'P', 'r', 'e', 'f', 'i', 'x', 'e', 'd', 'S', 't', 'r', 'i', 'n', 'g'], .encPstr),
   (['r', 'e', 'a', 'd', 'U', 'i', 'n', 't', '3', '2'], .decU32),
   (['r', 'e', 'a', 'd', 'I', 'n', 't', '3', '2'], .decI32),
   (['r', 'e', 'a', 'd', 'P', 'r', 'e', 'f', 'i', 'x', 'e', 'd', 'S', 't', 'r', 'i', 'n', 'g'], .decPstr)]

/-- The value of a digit in base 16. -/
def hexDigit (c : Char) : Option Nat :=
  let n := c.toNat
  if 0x30 ≤ n ∧ n ≤ 0x39 then some (n - 0x30)
  else if 0x41 ≤ n ∧ n ≤ 0x46 then some (n - 0x41 + 10)
  else if 0x61 ≤ n ∧ n ≤ 0x66 then some (n - 0x61 + 10)
  else none

/-- The number that the digits spell in base `base`, continuing from `acc`. -/
def digitsFrom (base : Nat) : Nat → List Char → Option Nat
  | acc, [] => some acc
  | acc, c :: cs =>
    match hexDigit c with
    | some d => if d < base then digitsFrom base (acc * base + d) cs else none
    | none => none

/-- One or more digits in base `base`. -/
def digits (base : Nat) (cs : List Char) : Option Nat :=
  match cs with
  | [] => none
  | _ :: _ => digitsFrom base 0 cs

/-- A line's leading and trailing spaces carry nothing. -/
def trim (cs : List Char) : List Char :=
  ((cs.dropWhile (· == ' ')).reverse.dropWhile (· == ' ')).reverse

/-- An unsigned decimal or `0x` integer, or a decimal fraction (R74 `<num>`), as numerator and denominator. -/
def magnitude (cs : List Char) : Option (Nat × Nat) :=
  match cs with
  | '0' :: 'x' :: h => (digits 16 h).map (·, 1)
  | _ =>
    let whole := cs.takeWhile (· != '.')
    match cs.dropWhile (· != '.') with
    | [] => (digits 10 whole).map (·, 1)
    | _ :: frac =>
      match digits 10 whole, digits 10 frac with
      | some w, some f => some (w * 10 ^ frac.length + f, 10 ^ frac.length)
      | _, _ => none

/-- R74's `<num>`. -/
def asmNum (cs : List Char) : Option NumOperand :=
  match cs with
  | ['N', 'a', 'N'] => some .nan
  | ['+', 'I', 'n', 'f'] => some .posInf
  | ['-', 'I', 'n', 'f'] => some .negInf
  | '-' :: m => (magnitude m).map fun x => .finite (mkRat (-(x.1 : Int)) x.2)
  | m => (magnitude m).map fun x => .finite (mkRat x.1 x.2)

/-- The characters after the opening quote of R74's text form, up to the closing quote (0x22): each is itself, or an escape
(0x5C, then `u`, then a hexadecimal number in braces, 0x7B and 0x7D); at most `fuel` of them. -/
def asmTextBody : Nat → List Char → Option Text
  | _, [] => none
  | 0, _ :: _ => none
  | fuel + 1, c :: cs =>
    if c.toNat = 0x22 then (if cs = [] then some [] else none)
    else if c.toNat = 0x5C then
      match cs with
      | 'u' :: b :: rest =>
        if b.toNat = 0x7B then
          match digits 16 (rest.takeWhile (·.toNat != 0x7D)), rest.dropWhile (·.toNat != 0x7D) with
          | some n, _ :: rest' => (asmTextBody fuel rest').map (n :: ·)
          | _, _ => none
        else none
      | _ => none
    else (asmTextBody fuel cs).map (c.toNat :: ·)

/-- R74's text operand, in double quotes (0x22). -/
def asmText (cs : List Char) : Option Text :=
  match cs with
  | c :: rest => if c.toNat = 0x22 then asmTextBody rest.length rest else none
  | [] => none

/-- One `<byte>`: hexadecimal, with or without `0x`. -/
def asmByte (cs : List Char) : Option Byte :=
  let h := match trim cs with
    | '0' :: 'x' :: h => h
    | h => h
  match digits 16 h with
  | some n => if n < 256 then some (BitVec.ofNat 8 n) else none
  | none => none

/-- The parts of a list between commas. -/
def splitCommas : List Char → List (List Char)
  | [] => [[]]
  | c :: cs =>
    match splitCommas cs with
    | [] => [[c]]
    | p :: ps => if c = ',' then [] :: p :: ps else (c :: p) :: ps

/-- R74's `[<byte>, …]`. -/
def asmBytes (cs : List Char) : Option (List Byte) :=
  match cs with
  | '[' :: rest =>
    match rest.reverse with
    | ']' :: inner =>
      if trim inner = [] then some []
      else (splitCommas inner.reverse).mapM asmByte
    | _ => none
  | _ => none

/-- The operand ports of a line: the command's own port from its operand, the others idle (R63: they are ignored). -/
def asmPorts (i : Instr) (operand : List Char) : Option Ports :=
  match i with
  | .encU32 | .encI32 => (asmNum operand).map fun x => { Ports.idle with numIn := x }
  | .encPstr => (asmText operand).map fun t => { Ports.idle with textIn := t }
  | .decLoad => (asmBytes operand).map fun bs => { Ports.idle with bytesIn := bs }
  | .encView | .decU32 | .decI32 | .decPstr => if operand = [] then some Ports.idle else none

/-- One line of R74's syntax: the command word and the operand port's value. -/
def assembleLine (line : List Char) : Option HostInput :=
  let l := trim line
  let name := l.takeWhile (· != ' ')
  match mnemonicNames.find? (·.1 == name) with
  | some (_, i) => (asmPorts i (trim (l.dropWhile (· != ' ')))).map (.issue (encode i))
  | none => none

end Sys2Proof.Machine
end

