-- ==== Sys2Proof/Tests/Slice0.lean ====
section
/-! SUPPORT. The model's own tests, each expected result from spec/95_test_vectors.md or a rule's own examples; the
smoke test of WellFormed; and for every statement with hypotheses a witness that meets them. -/

namespace Sys2Proof.Tests

open Sys2Proof Sys2Proof.Machine

/-! ### Small states -/

/-- The next state of an outcome. -/
def nextOf : Host.Outcome State Fault Refusal → Option State
  | .next s => some s
  | .fault _ => none
  | .refused _ => none

/-- After `rst`, with a number on `NUM_IN`. -/
def numState (x : NumOperand) : State := { State.reset with ports := { Ports.idle with numIn := x } }

/-- After `rst`, with a text on `TEXT_IN`. -/
def textState (t : Text) : State := { State.reset with ports := { Ports.idle with textIn := t } }

/-- After `rst`, with a byte list on `BYTES_IN`. -/
def bytesState (bs : List Byte) : State := { State.reset with ports := { Ports.idle with bytesIn := bs } }

/-- A decoder loaded with `src`, its cursor at `pos`. -/
def decoderState (src : List Byte) (pos : Nat := 0) : State :=
  { State.reset with decSrc := src, decLen := src.length, decPos := pos }

/-- After `rst`, with the host's acts `hs` to come. -/
def hostState (hs : List HostInput) : State := { State.reset with hostInputs := hs }

/-- `ENC_BUF` and the status code after an outcome. -/
def bufAfter (o : Host.Outcome State Fault Refusal) : Option (List Byte × Nat × BitVec 4) :=
  (nextOf o).map fun s => (s.encBuf, s.encLen, statusCode s.respStatus)

/-- Word, cursor, decoder state and status code after an outcome. -/
def wordAfter (o : Host.Outcome State Fault Refusal) : Option (Option Word × Nat × DecState × BitVec 4) :=
  (nextOf o).map fun s => (s.respWord, s.decPos, s.decState, statusCode s.respStatus)

/-- Text, cursor, decoder state and status code after an outcome. -/
def textAfter (o : Host.Outcome State Fault Refusal) : Option (Option Text × Nat × DecState × BitVec 4) :=
  (nextOf o).map fun s => (s.respText, s.decPos, s.decState, statusCode s.respStatus)

/-! ### Decoding: each word written out from R60 and R61 (unit in bits 7:4, function in bits 3:0) -/

theorem test_decode_encU32 : decode 0b00010000#8 = .ok .encU32 := by rfl
theorem test_decode_encI32 : decode 0b00010001#8 = .ok .encI32 := by rfl
theorem test_decode_encPstr : decode 0b00010010#8 = .ok .encPstr := by rfl
theorem test_decode_encView : decode 0b00010011#8 = .ok .encView := by rfl
theorem test_decode_decLoad : decode 0b00100000#8 = .ok .decLoad := by rfl
theorem test_decode_decU32 : decode 0b00100001#8 = .ok .decU32 := by rfl
theorem test_decode_decI32 : decode 0b00100010#8 = .ok .decI32 := by rfl
theorem test_decode_decPstr : decode 0b00100011#8 = .ok .decPstr := by rfl

/-- R62's reserved words, one at each edge of its three ranges. -/
theorem test_decode_illegal :
    decode 0x00#8 = .error .illegalUnit ∧ decode 0x0F#8 = .error .illegalUnit ∧
    decode 0x14#8 = .error .illegalEncFunc ∧ decode 0x1F#8 = .error .illegalEncFunc ∧
    decode 0x24#8 = .error .illegalDecFunc ∧ decode 0x2F#8 = .error .illegalDecFunc ∧
    decode 0x30#8 = .error .illegalUnit ∧ decode 0xFF#8 = .error .illegalUnit := ⟨rfl, rfl, rfl, rfl, rfl, rfl, rfl, rfl⟩

theorem test_decodeTableWord :
    decodeTableWord 8 0x10 = some .encU32 ∧ decodeTableWord 8 0x23 = some .decPstr ∧
    decodeTableWord 8 0x14 = none ∧ decodeTableWord 16 0x10 = none ∧
    decodeTableWord 5 0x10 = none ∧ decodeTableWord 8 0x110 = none := by decide

/-! ### WellFormed: an ill-formed operand for its check, at each edge of R67's two ranges -/

theorem smoke_wf_refuses_surrogates :
    Instr.wf .encPstr { Ports.idle with textIn := [0x61, 0xD800] } = false ∧
    Instr.wf .encPstr { Ports.idle with textIn := [0xDFFF] } = false := by decide

theorem smoke_wf_refuses_above_max : Instr.wf .encPstr { Ports.idle with textIn := [0x110000] } = false := by decide

theorem smoke_wf_accepts_scalars :
    Instr.wf .encPstr { Ports.idle with textIn := [0, 0xD7FF, 0xE000, 0x10FFFF] } = true := by decide

/-! ### One step of each command -/

/-- W-4. -/
theorem test_encU32_longest :
    bufAfter (exec .encU32 (numState (.finite 4294967295))) = some ([0xFF#8, 0xFF#8, 0xFF#8, 0xFF#8, 0x0F#8], 5, 0#4) := by
  decide

/-- DU-22: not an integer and out of range; integrality wins. -/
theorem test_encU32_negative_fraction :
    bufAfter (exec .encU32 (numState (.finite (mkRat (-1) 2)))) = some ([], 0, 1#4) := by decide

/-- W-7. -/
theorem test_encI32_sixty_four :
    bufAfter (exec .encI32 (numState (.finite 64))) = some ([0xC0#8, 0x00#8], 2, 0#4) := by decide

/-- W-6. -/
theorem test_encI32_lowest :
    bufAfter (exec .encI32 (numState (.finite (-2147483648)))) =
      some ([0x80#8, 0x80#8, 0x80#8, 0x80#8, 0x78#8], 5, 0#4) := by decide

/-- EP-6. -/
theorem test_encPstr_all_forms :
    bufAfter (exec .encPstr (textState [0x61, 0xE9, 0x20AC, 0x1F600])) =
      some ([0x0A#8, 0x61#8, 0xC3#8, 0xA9#8, 0xE2#8, 0x82#8, 0xAC#8, 0xF0#8, 0x9F#8, 0x98#8, 0x80#8], 11, 0#4) := by
  decide

/-- EP-10. -/
theorem test_encPstr_surrogate_refused : exec .encPstr (textState [0xD800]) = .refused .textOutsideDomain := rfl

/-- DV-2. -/
theorem test_encView_exact :
    (nextOf (exec .encView { State.reset with encBuf := [0xAC#8, 0x02#8, 0x7F#8], encLen := 3 })).map
      (fun s => (s.respBytes, s.encLen)) = some (some [0xAC#8, 0x02#8, 0x7F#8], 3) := by decide

/-- DL-2. -/
theorem test_decLoad_clears_failure :
    (nextOf (exec .decLoad { bytesState [0x05#8] with decState := .failed .outOfRange })).map
      (fun s => (s.decSrc, s.decLen, s.decPos, s.decState)) = some ([0x05#8], 1, 0, .ok) := by decide

/-- DL-3. -/
theorem test_decLoad_over_capacity :
    (nextOf (exec .decLoad { bytesState [0x01#8, 0x02#8] with
      decSrc := [0x07#8], decLen := 1, decPos := 1, cfg := { Config.default with decMaxBytes := .bounded 1 } })).map
      (fun s => (s.decSrc, s.decPos, statusCode s.respStatus)) = some ([0x07#8], 1, 6#4) := by decide

/-- DN-8. -/
theorem test_decU32_largest_fifth :
    wordAfter (exec .decU32 (decoderState [0x80#8, 0x80#8, 0x80#8, 0x80#8, 0x0F#8])) =
      some (some 0xF0000000#32, 5, .ok, 0#4) := by decide

/-- DN-11 (D11). -/
theorem test_decU32_sixth_group_needed :
    wordAfter (exec .decU32 (decoderState [0x80#8, 0x80#8, 0x80#8, 0x80#8, 0x80#8])) =
      some (none, 0, .failed .outOfRange, 2#4) := by decide

/-- DI-8. -/
theorem test_decI32_negative :
    wordAfter (exec .decI32 (decoderState [0xC0#8, 0xBB#8, 0x78#8])) = some (some 0xFFFE1DC0#32, 3, .ok, 0#4) := by
  decide

/-- DI-13 (conflict C2). -/
theorem test_decI32_0x77 :
    wordAfter (exec .decI32 (decoderState [0x80#8, 0x80#8, 0x80#8, 0x80#8, 0x77#8])) =
      some (none, 0, .failed .outOfRange, 2#4) := by decide

/-- DP-13: a byte-order mark is kept. -/
theorem test_decPstr_byte_order_mark :
    textAfter (exec .decPstr (decoderState [0x03#8, 0xEF#8, 0xBB#8, 0xBF#8])) = some (some [0xFEFF], 4, .ok, 0#4) := by
  decide

/-- DP-10: an encoded surrogate. -/
theorem test_decPstr_surrogate :
    textAfter (exec .decPstr (decoderState [0x03#8, 0xED#8, 0xA0#8, 0x80#8])) =
      some (none, 0, .failed .invalidUtf8, 4#4) := by decide

/-! ### Illegal words, resets, host reads, the operand mapping and the assembler -/

/-- DX-4. -/
theorem test_illegal_word_keeps_failure :
    wordAfter (step { hostState [.issue 0x24#8 Ports.idle] with decState := .failed .incompleteNumber }) =
      some (none, 0, .failed .incompleteNumber, 5#4) := by decide

/-- RS-2. -/
theorem test_rst_enc :
    (nextOf (step { decoderState [0x02#8] with encBuf := [0x01#8], encLen := 1, hostInputs := [.reset .rstEnc] })).map
      (fun s => (s.encBuf, s.encLen, s.decSrc, s.decPos)) = some ([], 0, [0x02#8], 0) := by decide

/-- R28: a result port with no value. -/
theorem test_read_of_no_value_faults : step (hostState [.read .respWord]) = .fault (.noValue .respWord) := rfl

/-- R65: a negative zero is `Finite(0)`; 1.5, NaN and the infinities. -/
theorem test_numOfBinary64 :
    numOfBinary64 0x8000000000000000#64 = .finite 0 ∧ numOfBinary64 0x3FF8000000000000#64 = .finite (mkRat 3 2) ∧
    numOfBinary64 0x7FF8000000000000#64 = .nan ∧ numOfBinary64 0x7FF0000000000000#64 = .posInf ∧
    numOfBinary64 0xFFF0000000000000#64 = .negInf := by decide

/-- P1 line 4: `ENC.U32 1.5`. -/
theorem test_assemble_fraction :
    assembleLine ['E', 'N', 'C', '.', 'U', '3', '2', ' ', '1', '.', '5'] =
      some (.issue 0x10#8 { Ports.idle with numIn := .finite (mkRat 3 2) }) := by decide

/-- R120's example: `DEC.LOAD [0xAC, 0x02]`. -/
theorem test_assemble_bytes :
    assembleLine ['D', 'E', 'C', '.', 'L', 'O', 'A', 'D', ' ', '[', '0', 'x', 'A', 'C', ',', ' ', '0', 'x', '0', '2', ']'] =
      some (.issue 0x20#8 { Ports.idle with bytesIn := [0xAC#8, 0x02#8] }) := by decide

/-! ### Witnesses: for each statement with hypotheses, values that meet them all, at the edges of each clause -/

theorem witness_StepRunsTheDecodedCommand :
    (hostState [.issue 0x23#8 Ports.idle]).hostInputs = [.issue 0x23#8 Ports.idle] ∧ decode 0x23#8 = .ok .decPstr ∧
    decodeTableWord 8 0x10 = some .encU32 := ⟨rfl, rfl, rfl⟩

theorem witness_IllegalWordChangesOnlyTheResponse :
    (hostState [.issue 0x0F#8 Ports.idle]).hostInputs = [.issue 0x0F#8 Ports.idle] ∧
    ∀ w ∈ [0x00#8, 0x0F#8, 0x14#8, 0x1F#8, 0x24#8, 0xFF#8],
      (BitVec.toNat w ≤ 0x0F ∨ (0x14 ≤ w.toNat ∧ w.toNat ≤ 0x1F) ∨ 0x24 ≤ w.toNat) := by decide

theorem witness_IdleBlockStaysAsItIs : (hostState []).hostInputs = [] := rfl

/-- Ports that differ from the state's in everything but the command's own port. -/
theorem witness_OnlyTheOwnOperandPortIsRead :
    (∀ i ∈ [Instr.encU32, .encI32], (i ∈ [Instr.encU32, .encI32] →
        (Ports.mk (.finite 0) [0x61] [0x01#8]).numIn = (numState (.finite 0)).ports.numIn) ∧
      (i = .encPstr → [0x61] = (numState (.finite 0)).ports.textIn) ∧
      (i = .decLoad → [0x01#8] = (numState (.finite 0)).ports.bytesIn)) ∧
    (Ports.mk .nan [] [0x01#8]).textIn = (textState []).ports.textIn ∧
    (Ports.mk .nan [0x61] []).bytesIn = (bytesState []).ports.bytesIn := by decide

theorem witness_UnitsShareNoState : Instr.encU32 ∈ encCommands ∧ Instr.encView ∈ encCommands ∧
    Instr.decLoad ∈ decCommands ∧ Instr.decPstr ∈ decCommands := by decide

theorem witness_ResetGivesTheSpecsValues :
    (hostState [.reset .rstEnc]).hostInputs = [.reset .rstEnc] ∧
    (hostState [.reset .rstDec]).hostInputs = [.reset .rstDec] ∧
    (hostState [.reset .rst]).hostInputs = [.reset .rst] := by decide

theorem witness_ResetDecoderReadsAsEmpty :
    ResetInput.rst ∈ [ResetInput.rstDec, .rst] ∧ (hostState [.reset .rst]).hostInputs = [.reset .rst] ∧
    Instr.decPstr ∈ readCommands := by decide

theorem witness_HostReadsHaveNoSideEffect :
    (hostState [.read .respWord]).hostInputs = [.read .respWord] ∧ (hostState [.read .respWord]).respWord = none ∧
    (hostState [.read .encLen]).hostInputs = [.read .encLen] := by decide

/-- A half is no integer. -/
theorem half_is_no_integer (v : Int) : NumOperand.finite (mkRat 1 2) ≠ .finite (v : Rat) := by
  intro h
  have := congrArg Rat.den (NumOperand.finite.inj h)
  rw [show (mkRat 1 2).den = 2 from rfl, Rat.den_intCast] at this
  omega

theorem witness_CheckedConversionIsIntegralityThenRange :
    (∀ v : Int, NumOperand.finite (mkRat 1 2) ≠ .finite (v : Rat)) ∧
    (NumOperand.finite ((-1 : Int) : Rat) = .finite ((-1 : Int) : Rat) ∧ ((-1 : Int) < 0 ∨ (2 ^ 32 - 1 : Int) < -1)) ∧
    ((0 : Int) ≤ 2 ^ 32 - 1 ∧ (2 ^ 32 - 1 : Int) ≤ 2 ^ 32 - 1) :=
  ⟨half_is_no_integer, ⟨rfl, by decide⟩, by decide⟩

theorem witness_EncU32FollowsItsRule :
    (∀ v : Int, (numState (.finite (mkRat 1 2))).ports.numIn ≠ .finite (v : Rat)) ∧
    ((numState (.finite ((2 ^ 32 : Int) : Rat))).ports.numIn = .finite ((2 ^ 32 : Int) : Rat) ∧
      ((2 ^ 32 : Int) < 0 ∨ (2 ^ 32 - 1 : Int) < 2 ^ 32)) ∧
    ((numState (.finite (((2 ^ 32 - 1 : Nat) : Int) : Rat))).ports.numIn = .finite (((2 ^ 32 - 1 : Nat) : Int) : Rat) ∧
      overCapacity (.bounded 4) (0 + (encU32 (2 ^ 32 - 1)).length) = true ∧
      overCapacity (.bounded 5) (0 + (encU32 (2 ^ 32 - 1)).length) = false) :=
  ⟨half_is_no_integer, ⟨rfl, by decide⟩, rfl, by decide, by decide⟩

theorem witness_EncI32FollowsItsRule :
    (∀ v : Int, (numState (.finite (mkRat 1 2))).ports.numIn ≠ .finite (v : Rat)) ∧
    ((numState (.finite ((-2 ^ 31 - 1 : Int) : Rat))).ports.numIn = .finite ((-2 ^ 31 - 1 : Int) : Rat) ∧
      ((-2 ^ 31 - 1 : Int) < -2 ^ 31 ∨ (2 ^ 31 - 1 : Int) < -2 ^ 31 - 1)) ∧
    ((numState (.finite ((-2 ^ 31 : Int) : Rat))).ports.numIn = .finite ((-2 ^ 31 : Int) : Rat) ∧
      (-2 ^ 31 : Int) ≤ -2 ^ 31 ∧ (-2 ^ 31 : Int) ≤ 2 ^ 31 - 1 ∧
      overCapacity (.bounded 4) (0 + (encI32 (-2 ^ 31)).length) = true ∧
      overCapacity (.bounded 5) (0 + (encI32 (-2 ^ 31)).length) = false) :=
  ⟨half_is_no_integer, ⟨rfl, by decide⟩, rfl, by decide, by decide, by decide, by decide⟩

theorem utf8Encode_length_le (t : Text) (n : Nat) (h : t.length = n) : n ≤ (utf8Encode t).length := by
  subst h
  induction t with
  | nil => simp
  | cons c t ih =>
    have h1 : 1 ≤ (utf8EncodeOne c).length := by unfold utf8EncodeOne; split_ifs <;> simp
    simp only [utf8Encode, List.flatMap_cons, List.length_append, List.length_cons] at *
    omega

/-- The four clauses: a surrogate; a text too long for its prefix; a bounded encoder too small by one byte; and one
that just holds the string. -/
theorem witness_EncPstrFollowsItsRule :
    (∃ c ∈ (textState [0xD800]).ports.textIn, ¬ (c ≤ 0xD7FF ∨ (0xE000 ≤ c ∧ c ≤ 0x10FFFF))) ∧
    ((∀ c ∈ (textState (List.replicate (2 ^ 32) 0x61)).ports.textIn, c ≤ 0xD7FF ∨ (0xE000 ≤ c ∧ c ≤ 0x10FFFF)) ∧
      2 ^ 32 - 1 < (utf8Encode (List.replicate (2 ^ 32) 0x61)).length) ∧
    (utf8Encode [0xE000, 0x10FFFF]).length ≤ 2 ^ 32 - 1 ∧
    overCapacity (.bounded 7) (0 + (encU32 (utf8Encode [0xE000, 0x10FFFF]).length).length +
      (utf8Encode [0xE000, 0x10FFFF]).length) = true ∧
    overCapacity (.bounded 8) (0 + (encU32 (utf8Encode [0xE000, 0x10FFFF]).length).length +
      (utf8Encode [0xE000, 0x10FFFF]).length) = false := by
  refine ⟨by decide, ⟨?_, ?_⟩, by decide, by decide, by decide⟩
  · intro c hc
    obtain rfl := List.eq_of_mem_replicate hc
    omega
  · have := utf8Encode_length_le (List.replicate (2 ^ 32) 0x61) (2 ^ 32) List.length_replicate
    omega

/-- Both ends of the range, a continued byte, and the one value whose last byte is zero. -/
theorem witness_UnsignedEncodingObeysTheLengthLaw :
    (2 ^ 32 - 1 : Nat) ≤ 2 ^ 32 - 1 ∧ (1 : Nat) ≤ 5 ∧ (2 ^ 32 - 1 : Nat) < 2 ^ (7 * 5) ∧
    (encU32 (2 ^ 32 - 1))[4]? = some 0x0F#8 ∧ (encU32 0).getLast? = some 0#8 := by decide

theorem witness_SignedEncodingObeysTheLengthLaw :
    (-2 ^ 31 : Int) ≤ -2 ^ 31 ∧ (-2 ^ 31 : Int) ≤ 2 ^ 31 - 1 ∧ (1 : Nat) ≤ 5 ∧
    (-2 ^ (7 * 5 - 1) : Int) ≤ -2 ^ 31 ∧ (-2 ^ 31 : Int) ≤ 2 ^ (7 * 5 - 1) - 1 := by decide

theorem witness_EncodersProduceVarintsOfTheValue :
    (2 ^ 32 - 1 : Nat) ≤ 2 ^ 32 - 1 ∧ (-2 ^ 31 : Int) ≤ -2 ^ 31 ∧ (-2 ^ 31 : Int) ≤ 2 ^ 31 - 1 := by decide

theorem witness_IntegerRoundTrips :
    (2 ^ 32 - 1 : Nat) ≤ 2 ^ 32 - 1 ∧ (-2 ^ 31 : Int) ≤ 2 ^ 31 - 1 ∧ (2 ^ 31 - 1 : Int) ≤ 2 ^ 31 - 1 := by decide

theorem witness_DecodeAndEncodeAgree : decode 0x23#8 = .ok .decPstr := rfl

theorem witness_StatusCodesAreTheTables : statusCode .ok = statusCode .ok := rfl

/-- Each side of each equivalence holds of some source. -/
theorem witness_IntegerReadErrorsAreExact :
    decU32 [0x80#8, 0x80#8, 0x80#8, 0x80#8] 0 = .error .incompleteNumber ∧
    decI32 [] 0 = .error .incompleteNumber ∧
    decU32 [0x80#8, 0x80#8, 0x80#8, 0x80#8, 0x10#8] 0 = .error .outOfRange ∧
    decI32 [0x80#8, 0x80#8, 0x80#8, 0x80#8, 0x77#8] 0 = .error .outOfRange := ⟨rfl, rfl, rfl, rfl⟩

theorem witness_UnsignedDecoderAcceptsExactlyTheVarints :
    decU32 [0xFF#8, 0x80#8, 0x00#8] 1 = .ok (0, 2) ∧
    [0x80#8, 0x00#8] <+: List.drop 1 [0xFF#8, 0x80#8, 0x00#8] ∧ UVarint [0x80#8, 0x00#8] 0 :=
  ⟨rfl, by decide, ⟨by decide, by decide, by decide, by decide⟩⟩

theorem witness_SignedDecoderAcceptsExactlyTheVarints :
    decI32 [0x80#8, 0x7F#8] 0 = .ok (-128, 2) ∧
    [0x80#8, 0x7F#8] <+: List.drop 0 [0x80#8, 0x7F#8] ∧ SVarint [0x80#8, 0x7F#8] (-128) :=
  ⟨rfl, by decide, ⟨by decide, by decide, by decide, by decide, by decide⟩⟩

theorem witness_Utf8DecodeInvertsEncode :
    utf8Decode [0xF4#8, 0x8F#8, 0xBF#8, 0xBF#8] = some [0x10FFFF] ∧
    utf8Encode [0x10FFFF] = [0xF4#8, 0x8F#8, 0xBF#8, 0xBF#8] := by decide

theorem witness_FailedAppendChangesOnlyTheResponse :
    Instr.encU32 ∈ appendCommands ∧
    ∃ t, exec .encU32 (numState .nan) = .next t ∧ t.respStatus ≠ .ok := ⟨by decide, _, rfl, by decide⟩

theorem witness_AppendFrame :
    (numState (.finite 300)).encLen = (numState (.finite 300)).encBuf.length ∧
    ∃ t, exec .encU32 (numState (.finite 300)) = .next t ∧ t.encLen = 2 := ⟨rfl, _, rfl, rfl⟩

theorem witness_EncoderBufferIsAppendOnly :
    ∃ t, step (hostState [.issue 0x11#8 Ports.idle]) = .next t ∧ t.encBuf = [0x00#8] := ⟨_, rfl, rfl⟩

theorem witness_DecLoadFollowsItsRule :
    overCapacity (.bounded 1) (bytesState [0x01#8, 0x02#8]).ports.bytesIn.length = true ∧
    overCapacity (.bounded 2) (bytesState [0x01#8, 0x02#8]).ports.bytesIn.length = false := by decide

/-- A minimal and a non-minimal unsigned varint, each with more bytes after it. -/
theorem witness_DecU32ReadsEveryUnsignedVarint :
    UVarint [0xFF#8, 0xFF#8, 0xFF#8, 0xFF#8, 0x0F#8] (2 ^ 32 - 1) ∧ UVarint [0x80#8, 0x00#8] 0 ∧
    (decoderState [0x05#8, 0x80#8, 0x00#8, 0x07#8] 1).decSrc.drop 1 = [0x80#8, 0x00#8] ++ [0x07#8] ∧
    (decoderState [0x05#8, 0x80#8, 0x00#8, 0x07#8] 1).decState = .ok :=
  ⟨⟨by decide, by decide, by decide, by decide⟩, ⟨by decide, by decide, by decide, by decide⟩, rfl, rfl⟩

theorem witness_DecI32ReadsEverySignedVarint :
    SVarint [0x80#8, 0x80#8, 0x80#8, 0x80#8, 0x78#8] (-2 ^ 31) ∧ SVarint [0xFF#8, 0x7F#8] (-1) ∧
    (decoderState [0xFF#8, 0x7F#8, 0x01#8]).decSrc.drop 0 = [0xFF#8, 0x7F#8] ++ [0x01#8] ∧
    (decoderState [0xFF#8, 0x7F#8, 0x01#8]).decState = .ok :=
  ⟨⟨by decide, by decide, by decide, by decide, by decide⟩,
   ⟨by decide, by decide, by decide, by decide, by decide⟩, rfl, rfl⟩

/-- A two-byte prefix, not minimal, of one character. -/
theorem witness_DecPstrReadsEveryPrefixedString :
    (decoderState [0x82#8, 0x00#8, 0xC3#8, 0xA9#8, 0x07#8]).decSrc.drop 0 =
      [0x82#8, 0x00#8] ++ utf8Encode [0xE9] ++ [0x07#8] ∧
    UVarint [0x82#8, 0x00#8] (utf8Encode [0xE9]).length ∧
    (∀ c ∈ [0xE9], c ≤ 0xD7FF ∨ (0xE000 ≤ c ∧ c ≤ 0x10FFFF)) ∧
    (decoderState [0x82#8, 0x00#8, 0xC3#8, 0xA9#8, 0x07#8]).decState = .ok ∧
    (decoderState [0x82#8, 0x00#8, 0xC3#8, 0xA9#8, 0x07#8]).decLen = 5 ∧ (0 : Nat) ≤ 5 :=
  ⟨by decide, ⟨by decide, by decide, by decide, by decide⟩, by decide, rfl, rfl, by decide⟩

/-- The five clauses: a failed decoder; a prefix error; one text byte too few; the right number of bytes, the form of no
text; and a text that uses up the source. -/
theorem witness_DecPstrFollowsItsRule :
    { decoderState [] with decState := .failed .invalidUtf8 }.decState = .failed .invalidUtf8 ∧
    (∀ src ∈ [[0x80#8], [0x02#8, 0xC3#8], [0x01#8, 0x80#8], [0x01#8, 0x61#8]], (decoderState src).decState = .ok) ∧
    decU32 (decoderState [0x80#8]).decSrc 0 = .error .incompleteNumber ∧
    (decU32 (decoderState [0x02#8, 0xC3#8]).decSrc 0 = .ok (2, 1) ∧ (decoderState [0x02#8, 0xC3#8]).decLen < 0 + 1 + 2) ∧
    (decU32 (decoderState [0x01#8, 0x80#8]).decSrc 0 = .ok (1, 1) ∧ 0 + 1 + 1 ≤ (decoderState [0x01#8, 0x80#8]).decLen ∧
      ∀ t : Text, (∀ c ∈ t, c ≤ 0xD7FF ∨ (0xE000 ≤ c ∧ c ≤ 0x10FFFF)) →
        utf8Encode t ≠ ((decoderState [0x01#8, 0x80#8]).decSrc.drop (0 + 1)).take 1) ∧
    (decU32 (decoderState [0x01#8, 0x61#8]).decSrc 0 = .ok (1, 1) ∧ 0 + 1 + 1 ≤ (decoderState [0x01#8, 0x61#8]).decLen ∧
      utf8Encode [0x61] = ((decoderState [0x01#8, 0x61#8]).decSrc.drop (0 + 1)).take 1) := by
  refine ⟨rfl, by decide, rfl, ⟨rfl, by decide⟩, ⟨rfl, by decide, ?_⟩, rfl, by decide, by decide⟩
  intro t ht he
  have h := (utf8DecodeLoop_iff 1 [0x80#8] t (by decide)).mpr ⟨(textAdmitted_iff t).mpr ht, he⟩
  rw [show utf8DecodeLoop 1 [0x80#8] = none by decide] at h
  exact absurd h (by simp)

theorem witness_DecU32FollowsItsRule :
    { decoderState [0x05#8] with decState := .failed .invalidUtf8 }.decState = .failed .invalidUtf8 ∧
    (decoderState [0x80#8]).decState = .ok ∧ decU32 [0x80#8] 0 = .error .incompleteNumber ∧
    decU32 [0x7F#8, 0x01#8] 0 = .ok (127, 1) := ⟨rfl, rfl, rfl, rfl⟩

theorem witness_DecI32FollowsItsRule :
    { decoderState [0x05#8] with decState := .failed .invalidUtf8 }.decState = .failed .invalidUtf8 ∧
    (decoderState [0x40#8]).decState = .ok ∧
    decI32 [0x80#8, 0x80#8, 0x80#8, 0x80#8, 0x08#8] 0 = .error .outOfRange ∧
    decI32 [0x80#8, 0x80#8, 0x80#8, 0x80#8, 0x78#8] 0 = .ok (-2 ^ 31, 5) := ⟨rfl, rfl, rfl, rfl⟩

theorem witness_SignedFifthByteWindowIsTheRangeRule :
    [0x80#8, 0x80#8, 0x80#8, 0x80#8].length = 4 ∧
    (∀ c ∈ [0x80#8, 0x80#8, 0x80#8, 0x80#8], BitVec.getLsbD c 7 = true) ∧
    (∀ b ∈ [0x07#8, 0x08#8, 0x77#8, 0x78#8], BitVec.getLsbD b 7 = false) ∧
    0x08 ≤ (0x08#8).toNat ∧ (0x77#8).toNat ≤ 0x77 ∧ [0x40#8] ≠ [] := by decide

theorem witness_IntegerReadsExamineAtMostFiveBytes :
    decU32 [0x05#8, 0xFF#8, 0xFF#8, 0xFF#8, 0xFF#8, 0x0F#8, 0x07#8] 1 = .ok (2 ^ 32 - 1, 5) ∧
    decI32 [0x80#8, 0x40#8] 1 = .ok (-64, 1) := ⟨rfl, rfl⟩

theorem witness_SignedReadingOfTheWordIsTheValue :
    decI32 (decoderState [0x40#8]).decSrc 0 = .ok (-64, 1) ∧
    (decoderState [0x40#8]).decState = .ok ∧
    ∃ t, exec .decI32 (decoderState [0x40#8]) = .next t ∧ t.respWord = some 0xFFFFFFC0#32 := ⟨rfl, rfl, _, rfl, rfl⟩

theorem witness_FailedReadRestoresTheCursor :
    Instr.decU32 ∈ readCommands ∧ (decoderState [0x05#8] 1).decState = .ok ∧
    ∃ t, exec .decU32 (decoderState [0x05#8] 1) = .next t ∧ t.respStatus ≠ .ok := ⟨by decide, rfl, _, rfl, by decide⟩

theorem witness_FailedDecoderAnswersTheSameKind :
    Instr.decI32 ∈ readCommands ∧
    { decoderState [0x40#8] with decState := .failed .outOfRange }.decState = .failed .outOfRange := by decide

theorem witness_OnlyLoadOrResetLeavesFailure :
    (∃ t, step { hostState [.issue 0x20#8 Ports.idle] with decState := .failed .invalidUtf8 } = .next t ∧
      t.decState = .ok) ∧
    (∃ t, step { hostState [.issue 0x21#8 Ports.idle] with decState := .failed .invalidUtf8 } = .next t ∧
      t.decState = .failed .invalidUtf8) ∧
    ((0x1F#8).toNat < 0x20 ∧ 0x24 ≤ (0x24#8).toNat) := ⟨⟨_, rfl, rfl⟩, ⟨_, rfl, rfl⟩, by decide⟩

theorem witness_OnlyLoadOrResetWritesTheSource :
    ∃ t, step (hostState [.issue 0x20#8 { Ports.idle with bytesIn := [0x05#8] }]) = .next t ∧ t.decSrc = [0x05#8] :=
  ⟨_, rfl, rfl⟩

/-- A state that meets the invariant and is not the reset state: one byte written, one byte loaded. -/
def workingState : State :=
  { decoderState [0x05#8] with encBuf := [0x01#8], encLen := 1, hostInputs := [.issue 0x21#8 Ports.idle] }

theorem workingState_inv : workingState.Inv := by
  constructor <;> decide

theorem witness_ReadCursorMovesOnlyByItsRule :
    workingState.Inv ∧ ∃ t, step workingState = .next t ∧ t.decPos = 1 := ⟨workingState_inv, _, rfl, rfl⟩

theorem witness_EveryStepKeepsTheInvariant :
    workingState.Inv ∧ ∃ t, step workingState = .next t ∧ t.respWord = some 5#32 := ⟨workingState_inv, _, rfl, rfl⟩

theorem witness_EveryStepKeepsTheConfiguration : ∃ t, step workingState = .next t := ⟨_, rfl⟩

theorem witness_ViewLoadAndReadFrame :
    Instr.encView ∈ Instr.encView :: decCommands ∧ Instr.decU32 ∈ Instr.encView :: decCommands ∧
    ∃ t, exec .decU32 workingState = .next t ∧ t.decPos = 1 := ⟨by decide, by decide, _, rfl, rfl⟩

theorem witness_PrefixedStringRoundTrip :
    (∀ c ∈ [0x1F600], c ≤ 0xD7FF ∨ (0xE000 ≤ c ∧ c ≤ 0x10FFFF)) ∧ (utf8Encode [0x1F600]).length ≤ 2 ^ 32 - 1 ∧
    (decoderState [0x04#8, 0xF0#8, 0x9F#8, 0x98#8, 0x80#8, 0x07#8]).decSrc =
      encU32 (utf8Encode [0x1F600]).length ++ utf8Encode [0x1F600] ++ [0x07#8] ∧
    (decoderState [0x04#8, 0xF0#8, 0x9F#8, 0x98#8, 0x80#8, 0x07#8]).decState = .ok ∧
    (decoderState [0x04#8, 0xF0#8, 0x9F#8, 0x98#8, 0x80#8, 0x07#8]).decPos = 0 ∧
    (decoderState [0x04#8, 0xF0#8, 0x9F#8, 0x98#8, 0x80#8, 0x07#8]).decLen = 6 := by decide

/-- P1 and P2: three values of the three kinds. -/
theorem witness_AppendedSequenceReadsBackInOrder :
    (∀ x ∈ [Item.u32 300, .i32 (-1), .text [0xE9]], x.admitted = true) ∧
    [Item.u32 300, .i32 (-1), .text [0xE9]] = [Item.u32 300] ++ Item.i32 (-1) :: [.text [0xE9]] ∧
    [Item.u32 300, .i32 (-1), .text [0xE9]].flatMap Item.wire =
      [0xAC#8, 0x02#8, 0x7F#8, 0x02#8, 0xC3#8, 0xA9#8] ∧
    (hostState ([Item.u32 300].map Item.appendInput)).cfg.encMaxBytes = .unbounded ∧
    (hostState ([Item.u32 300].map Item.readInput)).cfg.decMaxBytes = .unbounded := by
  refine ⟨by decide, rfl, by decide, rfl, rfl⟩

theorem witness_EachCommandRaisesOnlyItsErrors :
    ∃ t, exec .encI32 (numState .posInf) = .next t ∧ t.respStatus = .error .notAnInteger := ⟨_, rfl, rfl⟩

theorem witness_UnboundedStorageIsNeverExceeded :
    (numState (.finite 1)).cfg.encMaxBytes = .unbounded ∧ (numState (.finite 1)).cfg.decMaxBytes = .unbounded ∧
    ∃ t, exec .encU32 (numState (.finite 1)) = .next t := ⟨rfl, rfl, _, rfl⟩

theorem witness_ResultPortsHoldOnlyTheCommandsResult :
    ∃ t, exec .decPstr (decoderState [0x00#8]) = .next t ∧ t.respText = some [] := ⟨_, rfl, rfl⟩

theorem witness_StepStopsOnlyWhereTheSpecAsks :
    step (hostState [.read .respText]) = .fault (.noValue .respText) ∧
    step (hostState [.issue 0x12#8 { Ports.idle with textIn := [0x110000] }]) = .refused .textOutsideDomain := ⟨rfl, rfl⟩

theorem witness_DutifulHostAlwaysGetsAnAnswer :
    HostInput.dutiful State.reset (.issue 0x12#8 { Ports.idle with textIn := [0x61] }) ∧
    HostInput.dutiful State.reset (.read .decPos) := by
  refine ⟨?_, by simp [HostInput.dutiful, readOutput]⟩
  intro i hi
  have : i = .encPstr := (Except.ok.inj hi).symm
  subst this
  decide

end Sys2Proof.Tests
end

section
/-! Proofs of the scope statements: the two units share no state, and no step changes the configuration
(spec/00_scope.md R2, R4; 20_memory.md R52). -/

namespace Sys2Proof.Machine

/-! ### The units share no state -/

/-- What a read command takes in is DEC's: the encoder's elements are not read (R52). -/
theorem readOf_enc (i : Instr) (s : State) (buf : Memory) (len : Nat) :
    readOf i { s with encBuf := buf, encLen := len } = readOf i s := by
  cases i <;> rfl

theorem exec_encCommand_dec {i : Instr} (hi : i ∈ encCommands) (s : State) (src : Memory) (len pos : Nat)
    (d : DecState) :
    exec i { s with decSrc := src, decLen := len, decPos := pos, decState := d } =
      onNext (fun t => { t with decSrc := src, decLen := len, decPos := pos, decState := d }) (exec i s) := by
  simp only [encCommands, List.mem_cons, List.not_mem_nil, or_false] at hi
  rcases hi with rfl | rfl | rfl | rfl
  · exact congrArg Host.Outcome.next (appendOrRaise_dec (bytesOfU32 s.ports.numIn) s src len pos d)
  · exact congrArg Host.Outcome.next (appendOrRaise_dec (bytesOfI32 s.ports.numIn) s src len pos d)
  · simp only [exec, execEncPstr]
    split
    · exact congrArg Host.Outcome.next (appendOrRaise_dec (bytesOfText s.ports.textIn) s src len pos d)
    · rfl
  · rfl

theorem exec_decLoad_enc (s : State) (buf : Memory) (len : Nat) :
    exec .decLoad { s with encBuf := buf, encLen := len } =
      onNext (fun t => { t with encBuf := buf, encLen := len }) (exec .decLoad s) := by
  simp only [exec, execDecLoad]
  split <;> rfl

theorem exec_readCommand_enc {i : Instr} (hi : i ∈ readCommands) (s : State) (buf : Memory) (len : Nat) :
    exec i { s with encBuf := buf, encLen := len } =
      onNext (fun t => { t with encBuf := buf, encLen := len }) (exec i s) := by
  rw [exec_read hi, exec_read hi, readOf_enc, readOrRaise_enc]
  rfl

/-- Settles O8: the append commands by what `appendOrRaise` does not read, the read commands by what `readOrRaise`
does not read, and ENC.VIEW and DEC.LOAD by their own rules. -/
theorem unitsShareNoState : Obligations.UnitsShareNoState := by
  refine ⟨fun i hi s src len pos d => exec_encCommand_dec hi s src len pos d, fun i hi s buf len => ?_⟩
  obtain rfl | hread : i = .decLoad ∨ i ∈ readCommands := List.mem_cons.mp hi
  · exact exec_decLoad_enc s buf len
  · exact exec_readCommand_enc hread s buf len

/-! ### The configuration -/

@[simp] theorem applyReset_cfg (r : ResetInput) (s : State) : (applyReset r s).cfg = s.cfg := by
  cases r <;> rfl

/-- Every record update that a command can make keeps the configuration (R4). -/
theorem exec_cfg {i : Instr} {s t : State} (h : exec i s = .next t) : t.cfg = s.cfg := by
  obtain ⟨_, _, _, rfl⟩ | ⟨_, _, _, _, rfl⟩ | ⟨_, _, _, _, rfl⟩ | ⟨_, rfl⟩ | ⟨_, _, rfl⟩ | ⟨_, _, rfl⟩ |
    ⟨_, _, _, rfl⟩ | ⟨_, _, _, _, rfl⟩ | ⟨_, _, _, _, _, rfl⟩ := exec_next_cases h
  all_goals simp only [raise_cfg, raiseRead_cfg, respond_cfg, bufAppend_cfg]

/-- Settles O49, by what a step can do: idle, a reset, a host read, an illegal word, a command. -/
theorem everyStepKeepsTheConfiguration : Obligations.EveryStepKeepsTheConfiguration := by
  intro s t h
  obtain ⟨_, rfl⟩ | ⟨r, rest, _, rfl⟩ | ⟨_, _, _, _, rfl⟩ | ⟨_, p, rest, _, _, _, rfl⟩ |
    ⟨_, p, rest, i, _, _, hexec⟩ := step_cases h
  · rfl
  · exact applyReset_cfg r { s with hostInputs := rest }
  · rfl
  · exact illegalCommand_cfg { s with hostInputs := rest, ports := p }
  · have hcfg := exec_cfg hexec
    exact hcfg

end Sys2Proof.Machine
end

section
/-! Proofs of the state statements: the invariant, what each element changes by, the resets, the host's reads, the
response elements, and where a step stops (spec/10_state.md R20 to R32). -/

namespace Sys2Proof.Machine

/-! ### The invariant -/

/-- The part of `State.Inv` that speaks of the two units and not of the response (R22, R25, R26, R102, R120). -/
structure State.Stored (s : State) : Prop where
  encLen_eq : s.encLen = s.encBuf.length
  decLen_eq : s.decLen = s.decSrc.length
  decPos_le : s.decPos ≤ s.decLen
  enc_fits : overCapacity s.cfg.encMaxBytes s.encLen = false
  dec_fits : overCapacity s.cfg.decMaxBytes s.decLen = false

theorem State.Inv.stored {s : State} (h : s.Inv) : s.Stored where
  encLen_eq := h.encLen_eq
  decLen_eq := h.decLen_eq
  decPos_le := h.decPos_le
  enc_fits := h.enc_fits
  dec_fits := h.dec_fits

/-- The invariant says nothing of the host's acts and of the operand ports. -/
theorem State.Inv.withInputs {s : State} (h : s.Inv) (rest : List HostInput) (p : Ports) :
    State.Inv { s with hostInputs := rest, ports := p } :=
  { h with }

/-- A response meets the invariant when its result is one the block may present: none with an error, a text of scalar
values, or the bytes of `ENC_BUF` (R23, R28, R151, R206). -/
theorem State.Stored.respond_inv {s : State} (h : s.Stored) {st : Status} {r : Result}
    (herror : st ≠ .ok → r = .none) (htext : ∀ t, r = .text t → textAdmitted t = true)
    (hbytes : ∀ bs, r = .bytes bs → bs = s.encBuf) : (respond st r s).Inv where
  encLen_eq := h.encLen_eq
  decLen_eq := h.decLen_eq
  decPos_le := h.decPos_le
  enc_fits := h.enc_fits
  dec_fits := h.dec_fits
  error_no_result hst := by cases herror hst; exact ⟨rfl, rfl, rfl⟩
  word_alone := by cases r <;> simp [resultWord, resultText, resultBytes]
  text_alone := by cases r <;> simp [resultWord, resultText, resultBytes]
  text_scalars := by cases r <;> simp [resultText, htext]
  bytes_exact := by cases r <;> simp [resultBytes, hbytes]

theorem State.Stored.respond_none_inv {s : State} (h : s.Stored) (st : Status) : (respond st .none s).Inv :=
  h.respond_inv (fun _ => rfl) nofun nofun

theorem State.Stored.append {s : State} (h : s.Stored) {bs : List Byte}
    (hfits : overCapacity s.cfg.encMaxBytes (s.encLen + bs.length) = false) : (bufAppend bs s).Stored :=
  { h with
    encLen_eq := by simp [h.encLen_eq]
    enc_fits := hfits }

theorem State.Stored.load {s : State} (h : s.Stored) {bs : List Byte}
    (hfits : overCapacity s.cfg.decMaxBytes bs.length = false) :
    State.Stored { s with decSrc := bs, decLen := bs.length, decPos := 0, decState := .ok } :=
  { h with
    decLen_eq := rfl
    decPos_le := Nat.zero_le _
    dec_fits := hfits }

theorem State.Stored.advance {s : State} (h : s.Stored) {n : Nat} (hn : s.decPos + n ≤ s.decLen) :
    State.Stored { s with decPos := s.decPos + n } :=
  { h with decPos_le := hn }

theorem State.Stored.clearEnc {s : State} (h : s.Stored) : State.Stored { s with encBuf := [], encLen := 0 } :=
  { h with
    encLen_eq := rfl
    enc_fits := overCapacity_zero _ }

/-- Settles O47: both units are empty, which fits every bound, and no result is presented. -/
theorem resetMeetsTheInvariant : Obligations.ResetMeetsTheInvariant := by
  have hreset (c : Config) : (State.resetWith c).Inv :=
    State.Stored.respond_none_inv (s := State.resetWith c)
      ⟨rfl, rfl, Nat.le_refl 0, overCapacity_zero _, overCapacity_zero _⟩ .ok
  exact ⟨hreset _, hreset⟩

theorem applyReset_inv {s : State} (h : s.Stored) (r : ResetInput) : (applyReset r s).Inv := by
  cases r with
  | rstEnc => exact h.clearEnc.respond_none_inv .ok
  | rstDec => exact (h.load (bs := []) (overCapacity_zero _)).respond_none_inv .ok
  | rst =>
    have henc : (resetEnc s).Stored := (h.clearEnc.respond_none_inv .ok).stored
    exact (henc.load (bs := []) (overCapacity_zero _)).respond_none_inv .ok

/-- Every record update that a command can make gives the invariant, from the storage part of it alone. -/
theorem exec_inv {i : Instr} {s t : State} (h : s.Stored) (hexec : exec i s = .next t) : t.Inv := by
  obtain ⟨_, _, _, rfl⟩ | ⟨_, _, _, _, rfl⟩ | ⟨_, _, _, hfits, rfl⟩ | ⟨_, rfl⟩ | ⟨_, _, rfl⟩ | ⟨_, hfits, rfl⟩ |
    ⟨_, _, _, rfl⟩ | ⟨k, _, _, _, rfl⟩ | ⟨_, _, hread, _, hok, rfl⟩ := exec_next_cases hexec
  · exact h.respond_none_inv _
  · exact h.respond_none_inv _
  · exact (h.append hfits).respond_none_inv .ok
  · refine h.respond_inv (fun hne => absurd rfl hne) nofun fun bs hbs => ?_
    cases hbs
    simp [memSlice, h.encLen_eq]
  · exact h.respond_none_inv _
  · exact (h.load hfits).respond_none_inv .ok
  · exact h.respond_none_inv _
  · have hfailed : State.Stored { s with decState := .failed k } := { h with }
    exact hfailed.respond_none_inv _
  · obtain ⟨_, hle, ⟨_, w, rfl⟩ | ⟨_, t, rfl, ht⟩⟩ := readOf_ok hread hok h.decLen_eq
    · exact (h.advance hle).respond_inv (fun hne => absurd rfl hne) nofun nofun
    · refine (h.advance hle).respond_inv (fun hne => absurd rfl hne) (fun t' ht' => ?_) nofun
      cases ht'
      exact ht

/-- Settles O48: a step that is no idle step, read or reset ends in a response, whose result the block may present. -/
theorem everyStepKeepsTheInvariant : Obligations.EveryStepKeepsTheInvariant := by
  intro s t hinv h
  obtain ⟨_, rfl⟩ | ⟨r, rest, _, rfl⟩ | ⟨_, rest, _, _, rfl⟩ | ⟨_, p, rest, _, _, _, rfl⟩ |
    ⟨_, p, rest, _, _, _, hexec⟩ := step_cases h
  · exact hinv
  · exact applyReset_inv (hinv.withInputs rest s.ports).stored r
  · exact hinv.withInputs rest s.ports
  · exact (hinv.withInputs rest p).stored.respond_none_inv _
  · exact exec_inv (hinv.withInputs rest p).stored hexec

/-! ### What a command does to one element -/

/-- `ENC_BUF` and `ENC_LEN`: only an append command that answers OK changes them, by bytes at the end (R21, R22). -/
theorem exec_encoder {i : Instr} {s t : State} (h : exec i s = .next t) :
    (t.encBuf = s.encBuf ∧ t.encLen = s.encLen) ∨
    (i ∈ appendCommands ∧ t.respStatus = .ok ∧
      ∃ bs, t.encBuf = s.encBuf ++ bs ∧ t.encLen = s.encLen + bs.length) := by
  obtain ⟨_, _, _, rfl⟩ | ⟨_, _, _, _, rfl⟩ | ⟨bs, happend, _, _, rfl⟩ | ⟨_, rfl⟩ | ⟨_, _, rfl⟩ | ⟨_, _, rfl⟩ |
    ⟨_, _, _, rfl⟩ | ⟨_, _, _, _, rfl⟩ | ⟨_, _, _, _, _, rfl⟩ := exec_next_cases h
  case inr.inr.inl => exact .inr ⟨happend, rfl, bs, rfl, rfl⟩
  all_goals exact .inl ⟨rfl, rfl⟩

/-- `DEC_SRC` and `DEC_LEN`: only a DEC.LOAD that answers OK changes them (R24, R25). -/
theorem exec_source {i : Instr} {s t : State} (h : exec i s = .next t) :
    (t.decSrc = s.decSrc ∧ t.decLen = s.decLen) ∨
    (i = .decLoad ∧ t.respStatus = .ok ∧ t.decSrc = s.ports.bytesIn ∧ t.decLen = s.ports.bytesIn.length) := by
  obtain ⟨_, _, _, rfl⟩ | ⟨_, _, _, _, rfl⟩ | ⟨_, _, _, _, rfl⟩ | ⟨_, rfl⟩ | ⟨_, _, rfl⟩ | ⟨hload, _, rfl⟩ |
    ⟨_, _, _, rfl⟩ | ⟨_, _, _, _, rfl⟩ | ⟨_, _, _, _, _, rfl⟩ := exec_next_cases h
  case inr.inr.inr.inr.inr.inl => exact .inr ⟨hload, rfl, rfl, rfl⟩
  all_goals exact .inl ⟨rfl, rfl⟩

/-- `DEC_POS`: a DEC.LOAD that answers OK sets it to 0, a read that answers OK moves it forward (R26, R42). -/
theorem exec_cursor {i : Instr} {s t : State} (hlen : s.decLen = s.decSrc.length) (h : exec i s = .next t) :
    t.decPos = s.decPos ∨
    (i = .decLoad ∧ t.respStatus = .ok ∧ t.decPos = 0) ∨
    (i ∈ readCommands ∧ s.decState = .ok ∧ t.respStatus = .ok ∧ s.decPos < t.decPos ∧ t.decPos ≤ s.decLen) := by
  obtain ⟨_, _, _, rfl⟩ | ⟨_, _, _, _, rfl⟩ | ⟨_, _, _, _, rfl⟩ | ⟨_, rfl⟩ | ⟨_, _, rfl⟩ | ⟨hload, _, rfl⟩ |
    ⟨_, _, _, rfl⟩ | ⟨_, _, _, _, rfl⟩ | ⟨n, _, hread, hstate, hok, rfl⟩ := exec_next_cases h
  case inr.inr.inr.inr.inr.inl => exact .inr (.inl ⟨hload, rfl, rfl⟩)
  case inr.inr.inr.inr.inr.inr.inr.inr =>
    obtain ⟨hpos, hle, _⟩ := readOf_ok hread hok hlen
    exact .inr (.inr ⟨hread, hstate, rfl, Nat.lt_add_of_pos_right hpos, hle⟩)
  all_goals exact .inl rfl

/-- No command writes an operand port or takes a further act of the host. -/
theorem exec_inputs {i : Instr} {s t : State} (h : exec i s = .next t) :
    t.ports = s.ports ∧ t.hostInputs = s.hostInputs := by
  obtain ⟨_, _, _, rfl⟩ | ⟨_, _, _, _, rfl⟩ | ⟨_, _, _, _, rfl⟩ | ⟨_, rfl⟩ | ⟨_, _, rfl⟩ | ⟨_, _, rfl⟩ |
    ⟨_, _, _, rfl⟩ | ⟨_, _, _, _, rfl⟩ | ⟨_, _, _, _, _, rfl⟩ := exec_next_cases h
  all_goals exact ⟨rfl, rfl⟩

theorem encode_appendCommands : ∀ i ∈ appendCommands, encode i ∈ [0x10#8, 0x11#8, 0x12#8] := by decide

theorem encode_readCommands : ∀ i ∈ readCommands, encode i ∈ [0x21#8, 0x22#8, 0x23#8] := by decide

/-! ### What a step does to one element -/

/-- Of the acts of the host, only an encoder reset and a successful append write the encoder (R21, R22). -/
theorem step_encoder {s t : State} (h : step s = .next t) :
    (t.encBuf = s.encBuf ∧ t.encLen = s.encLen) ∨
    (∃ rest, (s.hostInputs = .reset .rstEnc :: rest ∨ s.hostInputs = .reset .rst :: rest) ∧
      t.encBuf = [] ∧ t.encLen = 0) ∨
    (∃ i p rest, i ∈ appendCommands ∧ s.hostInputs = .issue (encode i) p :: rest ∧ t.respStatus = .ok ∧
      ∃ bs, t.encBuf = s.encBuf ++ bs ∧ t.encLen = s.encLen + bs.length) := by
  obtain ⟨_, rfl⟩ | ⟨r, rest, hact, rfl⟩ | ⟨_, _, _, _, rfl⟩ | ⟨_, _, _, _, _, _, rfl⟩ |
    ⟨w, p, rest, i, hact, hdec, hexec⟩ := step_cases h
  · exact .inl ⟨rfl, rfl⟩
  · cases r with
    | rstEnc => exact .inr (.inl ⟨rest, .inl hact, rfl, rfl⟩)
    | rstDec => exact .inl ⟨rfl, rfl⟩
    | rst => exact .inr (.inl ⟨rest, .inr hact, rfl, rfl⟩)
  · exact .inl ⟨rfl, rfl⟩
  · exact .inl ⟨rfl, rfl⟩
  · obtain hkept | ⟨happend, hst, hgrown⟩ := exec_encoder hexec
    · exact .inl hkept
    · obtain rfl := (decode_ok_iff w i).mp hdec
      exact .inr (.inr ⟨i, p, rest, happend, hact, hst, hgrown⟩)

/-- Settles O23, by `step_encoder`; an unchanged buffer has grown by no bytes. -/
theorem encoderBufferIsAppendOnly : Obligations.EncoderBufferIsAppendOnly := by
  intro s t h
  obtain ⟨hbuf, hlen⟩ | hreset | ⟨i, p, rest, happend, hact, hst, bs, hbuf, hlen⟩ := step_encoder h
  · exact .inr ⟨[], by simp [hbuf], hlen, fun hne => absurd rfl hne⟩
  · exact .inl hreset
  · exact .inr ⟨bs, hbuf, hlen, fun _ => ⟨hst, encode i, p, rest, hact, encode_appendCommands i happend⟩⟩

/-- Settles O40: of the acts of the host, only a decoder reset and a successful DEC.LOAD write the source. -/
theorem onlyLoadOrResetWritesTheSource : Obligations.OnlyLoadOrResetWritesTheSource := by
  intro s t h
  obtain ⟨_, rfl⟩ | ⟨r, rest, hact, rfl⟩ | ⟨_, _, _, _, rfl⟩ | ⟨_, _, _, _, _, _, rfl⟩ |
    ⟨w, p, rest, i, hact, hdec, hexec⟩ := step_cases h
  · exact .inl ⟨rfl, rfl⟩
  · cases r with
    | rstEnc => exact .inl ⟨rfl, rfl⟩
    | rstDec => exact .inr (.inr ⟨rest, .inl hact, rfl, rfl⟩)
    | rst => exact .inr (.inr ⟨rest, .inr hact, rfl, rfl⟩)
  · exact .inl ⟨rfl, rfl⟩
  · exact .inl ⟨rfl, rfl⟩
  · obtain ⟨hsrc, hlen⟩ | ⟨rfl, hst, hsrc, hlen⟩ := exec_source hexec
    · exact .inl ⟨hsrc, hlen⟩
    · obtain rfl : w = 0x20#8 := (decode_ok_iff w .decLoad).mp hdec
      exact .inr (.inl ⟨p, rest, hact, hst, hsrc, hlen⟩)

/-- Settles O41: of the acts of the host, only a decoder reset, a DEC.LOAD and a successful read move the cursor. -/
theorem readCursorMovesOnlyByItsRule : Obligations.ReadCursorMovesOnlyByItsRule := by
  intro s t hinv h
  obtain ⟨_, rfl⟩ | ⟨r, rest, hact, rfl⟩ | ⟨_, _, _, _, rfl⟩ | ⟨_, _, _, _, _, _, rfl⟩ |
    ⟨w, p, rest, i, hact, hdec, hexec⟩ := step_cases h
  · exact .inl rfl
  · cases r with
    | rstEnc => exact .inl rfl
    | rstDec => exact .inr (.inl ⟨rfl, rest, .inr (.inl hact)⟩)
    | rst => exact .inr (.inl ⟨rfl, rest, .inr (.inr hact)⟩)
  · exact .inl rfl
  · exact .inl rfl
  · obtain hpos | ⟨rfl, hst, hpos⟩ | ⟨hread, hstate, hst, hlt, hle⟩ :=
      exec_cursor (hinv.withInputs rest p).decLen_eq hexec
    · exact .inl hpos
    · obtain rfl : w = 0x20#8 := (decode_ok_iff w .decLoad).mp hdec
      exact .inr (.inl ⟨hpos, rest, .inl ⟨p, hact, hst⟩⟩)
    · obtain rfl := (decode_ok_iff w i).mp hdec
      exact .inr (.inr ⟨hlt, hle, hst, hstate, encode i, p, rest, hact, encode_readCommands i hread⟩)

/-- Settles O42, by the rules for the encoder, the source and the inputs; ENC.VIEW makes one record update. -/
theorem viewLoadAndReadFrame : Obligations.ViewLoadAndReadFrame := by
  intro i hi s t h
  have hnoAppend : ∀ i ∈ Instr.encView :: decCommands, i ∉ appendCommands := by decide
  obtain ⟨hbuf, hencLen⟩ := (exec_encoder h).resolve_right fun hr => hnoAppend i hi hr.1
  obtain ⟨hports, hinputs⟩ := exec_inputs h
  refine ⟨fun a => by rw [hbuf], hencLen, fun hload => ?_, fun hview => ?_, exec_cfg h, hports, hinputs⟩
  · obtain ⟨hsrc, hdecLen⟩ := (exec_source h).resolve_right fun hr => hload hr.1
    exact ⟨fun a => by rw [hsrc], hdecLen⟩
  · subst hview
    cases h
    exact ⟨rfl, rfl⟩

/-! ### The response elements -/

/-- Settles O7: the append commands by `appendOrRaise_response`, the read commands by `readOrRaise_response`, ENC.VIEW
and DEC.LOAD by their own rules. -/
theorem commandsNeverReadTheResponse : Obligations.CommandsNeverReadTheResponse := by
  intro i s st w t b
  cases i with
  | encU32 => exact congrArg Host.Outcome.next (appendOrRaise_response _ s st w t b)
  | encI32 => exact congrArg Host.Outcome.next (appendOrRaise_response _ s st w t b)
  | encPstr =>
    simp only [exec, execEncPstr]
    rw [appendOrRaise_response]
  | encView => rfl
  | decLoad =>
    simp only [exec, execDecLoad]
    split <;> rfl
  | decU32 => exact congrArg Host.Outcome.next (readOrRaise_response _ s st w t b)
  | decI32 => exact congrArg Host.Outcome.next (readOrRaise_response _ s st w t b)
  | decPstr => exact congrArg Host.Outcome.next (readOrRaise_response _ s st w t b)

/-- The kind of result of a successful read, in every state (R64). -/
theorem readOf_result {i : Instr} {s : State} {n : Nat} {res : Result} (hi : i ∈ readCommands)
    (h : readOf i s = .ok (n, res)) :
    (i ∈ [Instr.decU32, .decI32] ∧ ∃ w, res = .word w) ∨ (i = .decPstr ∧ ∃ t, res = .text t) := by
  simp only [readCommands, List.mem_cons, List.not_mem_nil, or_false] at hi
  rcases hi with rfl | rfl | rfl
  · simp only [readOf, readU32] at h
    split at h <;> cases h
    exact .inl ⟨by decide, _, rfl⟩
  · simp only [readOf, readI32] at h
    split at h <;> cases h
    exact .inl ⟨by decide, _, rfl⟩
  · obtain ⟨_, _, t, rfl, _⟩ := readPstr_ok h
    exact .inr ⟨rfl, t, rfl⟩

/-- An append command is none of the commands that R64 gives a result. -/
theorem appendCommands_no_result :
    ∀ i ∈ appendCommands, i ∉ [Instr.decU32, .decI32] ∧ i ≠ .decPstr ∧ i ≠ .encView := by decide

theorem readCommands_ne_encView : ∀ i ∈ readCommands, i ≠ .encView := by decide

/-- Settles O52: an error presents nothing (R206), a success the result of its command (R64). -/
theorem resultPortsHoldOnlyTheCommandsResult : Obligations.ResultPortsHoldOnlyTheCommandsResult := by
  intro i s t h
  obtain ⟨_, hi, _, rfl⟩ | ⟨_, hi, _, _, rfl⟩ | ⟨_, hi, _, _, rfl⟩ | ⟨rfl, rfl⟩ | ⟨rfl, _, rfl⟩ | ⟨rfl, _, rfl⟩ |
    ⟨_, hi, _, rfl⟩ | ⟨_, hi, _, _, rfl⟩ | ⟨_, _, hi, _, hok, rfl⟩ := exec_next_cases h
  · simp [appendCommands_no_result i hi]
  · simp [appendCommands_no_result i hi]
  · simpa [resultWord, resultText, resultBytes] using appendCommands_no_result i hi
  · simp [resultWord, resultText, resultBytes]
  · simp
  · simp [resultWord, resultText, resultBytes]
  · simp [readCommands_ne_encView i hi]
  · simp [readCommands_ne_encView i hi]
  · obtain ⟨hword, _, rfl⟩ | ⟨rfl, _, rfl⟩ := readOf_result hi hok
    · have hne : i ≠ .decPstr := by rintro rfl; simp at hword
      simp [resultWord, resultText, resultBytes, readCommands_ne_encView i hi, hne, hword]
    · simp [resultWord, resultText, resultBytes]

/-! ### The acts of the host -/

theorem step_idle {s : State} (h : s.hostInputs = []) : step s = .next s := by
  simp only [step, h]

theorem step_issue {s : State} {w : Byte} {p : Ports} {rest : List HostInput} (h : s.hostInputs = .issue w p :: rest) :
    step s = issueWord w { s with hostInputs := rest, ports := p } := by
  simp only [step, h, takeInput]

theorem step_reset {s : State} {r : ResetInput} {rest : List HostInput} (h : s.hostInputs = .reset r :: rest) :
    step s = .next (applyReset r { s with hostInputs := rest }) := by
  simp only [step, h, takeInput]

/-- A host read whose output has no value is a fault (R28). -/
theorem step_read_none {s : State} {o : Output} {rest : List HostInput} (h : s.hostInputs = .read o :: rest)
    (hnone : readOutput o s = none) : step s = .fault (.noValue o) := by
  have hrest : readOutput o { s with hostInputs := rest } = none := by rw [← hnone]; cases o <;> rfl
  simp only [step, h, takeInput, hostRead, hrest]

/-- A host read whose output has a value only takes the act (R31). -/
theorem step_read_some {s : State} {o : Output} {rest : List HostInput} (h : s.hostInputs = .read o :: rest)
    {v : OutputValue} (hsome : readOutput o s = some v) : step s = .next { s with hostInputs := rest } := by
  have hrest : readOutput o { s with hostInputs := rest } = some v := by rw [← hsome]; cases o <;> rfl
  simp only [step, h, takeInput, hostRead, hrest]

/-- Only a result port can be without a value (R28). -/
theorem readOutput_eq_none_iff (o : Output) (s : State) : readOutput o s = none ↔
    (o = .respWord ∧ s.respWord = none) ∨ (o = .respText ∧ s.respText = none) ∨
      (o = .respBytes ∧ s.respBytes = none) := by
  cases o <;> simp [readOutput]

/-- Settles O9, by `step_reset` for each of the three reset inputs. -/
theorem resetGivesTheSpecsValues : Obligations.ResetGivesTheSpecsValues := by
  refine ⟨⟨rfl, rfl, rfl, rfl, rfl, rfl, rfl, rfl, rfl, rfl⟩, ?_, ?_, ?_⟩
  · exact fun _ _ hact => step_reset hact
  · exact fun _ _ hact => step_reset hact
  · exact fun _ _ hact => step_reset hact

/-- Settles O11, by whether the output has a value. -/
theorem hostReadsHaveNoSideEffect : Obligations.HostReadsHaveNoSideEffect := by
  intro s o rest hact
  rw [← readOutput_eq_none_iff]
  cases hread : readOutput o s with
  | none => exact .inl ⟨rfl, step_read_none hact hread⟩
  | some v => exact .inr ⟨nofun, step_read_some hact hread⟩

/-! ### Where a step stops -/

theorem exec_ne_fault (i : Instr) (s : State) (f : Fault) : exec i s ≠ .fault f := by
  cases i with
  | encPstr => simp only [exec, execEncPstr]; split <;> nofun
  | decLoad => simp only [exec, execDecLoad]; split <;> nofun
  | encU32 | encI32 | encView | decU32 | decI32 | decPstr => nofun

/-- The one command without a meaning: ENC.PSTR on a text outside `TEXT_IN`'s domain (R67). -/
theorem exec_refused_iff (i : Instr) (s : State) (r : Refusal) : exec i s = .refused r ↔
    i = .encPstr ∧ r = .textOutsideDomain ∧ textAdmitted s.ports.textIn ≠ true := by
  cases i with
  | encPstr =>
    simp only [exec, execEncPstr]
    split
    case isTrue htext => simp [htext]
    case isFalse htext => simp [htext, eq_comm]
  | decLoad => simp only [exec, execDecLoad]; split <;> simp
  | encU32 | encI32 | encView | decU32 | decI32 | decPstr =>
    simp [exec, execEncU32, execEncI32, execEncView, execDecU32, execDecI32, execDecPstr]

theorem textAdmitted_ne_true_iff (t : Text) :
    textAdmitted t ≠ true ↔ ∃ c ∈ t, ¬ (c ≤ 0xD7FF ∨ (0xE000 ≤ c ∧ c ≤ 0x10FFFF)) := by
  simp only [Ne, textAdmitted_iff, not_forall, exists_prop]

theorem issueWord_ne_fault (w : Byte) (s : State) (f : Fault) : issueWord w s ≠ .fault f := by
  unfold issueWord
  split
  · exact exec_ne_fault _ s f
  · nofun

theorem issueWord_refused_iff (w : Byte) (s : State) (r : Refusal) : issueWord w s = .refused r ↔
    w = 0x12#8 ∧ r = .textOutsideDomain ∧ textAdmitted s.ports.textIn ≠ true := by
  have hpstr : w = 0x12#8 ↔ decode w = .ok .encPstr := (decode_ok_iff w .encPstr).symm
  unfold issueWord
  rw [hpstr]
  cases hdec : decode w with
  | ok i => simp [exec_refused_iff]
  | error e => simp

theorem step_fault_iff (s : State) (f : Fault) : step s = .fault f ↔
    ∃ o rest, s.hostInputs = .read o :: rest ∧ f = .noValue o ∧ readOutput o s = none := by
  constructor
  · intro h
    rcases hact : s.hostInputs with _ | ⟨⟨w, p⟩ | r | o, rest⟩
    · cases (step_idle hact).symm.trans h
    · exact absurd ((step_issue hact).symm.trans h) (issueWord_ne_fault w _ f)
    · cases (step_reset hact).symm.trans h
    · cases hread : readOutput o s with
      | none =>
        cases (step_read_none hact hread).symm.trans h
        exact ⟨o, rest, rfl, rfl, hread⟩
      | some v => cases (step_read_some hact hread).symm.trans h
  · rintro ⟨o, rest, hact, rfl, hread⟩
    exact step_read_none hact hread

theorem step_refused_iff (s : State) (r : Refusal) : step s = .refused r ↔
    ∃ p rest, s.hostInputs = .issue 0x12#8 p :: rest ∧ r = .textOutsideDomain ∧ textAdmitted p.textIn ≠ true := by
  constructor
  · intro h
    rcases hact : s.hostInputs with _ | ⟨⟨w, p⟩ | r' | o, rest⟩
    · cases (step_idle hact).symm.trans h
    · obtain ⟨rfl, hr, htext⟩ := (issueWord_refused_iff w _ r).mp ((step_issue hact).symm.trans h)
      exact ⟨p, rest, rfl, hr, htext⟩
    · cases (step_reset hact).symm.trans h
    · cases hread : readOutput o s with
      | none => cases (step_read_none hact hread).symm.trans h
      | some v => cases (step_read_some hact hread).symm.trans h
  · rintro ⟨p, rest, hact, hr, htext⟩
    exact (step_issue hact).trans ((issueWord_refused_iff _ _ r).mpr ⟨rfl, hr, htext⟩)

/-- Settles O53, by the host's next act: idle and reset never stop, an issued word never faults, a read is never
refused. -/
theorem stepStopsOnlyWhereTheSpecAsks : Obligations.StepStopsOnlyWhereTheSpecAsks := by
  refine ⟨step_fault_iff, fun s r => ?_⟩
  simp only [← textAdmitted_ne_true_iff]
  exact step_refused_iff s r

/-- Settles O54: each of the two stops breaks one of the host's duties. -/
theorem dutifulHostAlwaysGetsAnAnswer : Obligations.DutifulHostAlwaysGetsAnAnswer := by
  intro s hduty
  cases h : step s with
  | next t => exact ⟨t, rfl⟩
  | fault f =>
    obtain ⟨o, rest, hact, _, hnone⟩ := (step_fault_iff s f).mp h
    exact absurd hnone (hduty _ rest hact)
  | refused r =>
    obtain ⟨p, rest, hact, _, htext⟩ := (step_refused_iff s r).mp h
    have hpstr : decode 0x12#8 = .ok .encPstr := (decode_ok_iff _ _).mpr rfl
    exact absurd (hduty _ rest hact .encPstr hpstr).1 htext

end Sys2Proof.Machine
end

section
/-! Proofs of the memory statements: what an append command leaves unchanged (spec/20_memory.md R40, R41, R49). -/

namespace Sys2Proof.Machine

/-- An append leaves every offset outside the bytes it writes; at and above the new end there is still no byte (R41). -/
theorem memRead_memAppend_outside (m : Memory) (bs : List Byte) (a : Nat)
    (h : ¬ (m.length ≤ a ∧ a < m.length + bs.length)) : memRead (memAppend m bs) a = memRead m a := by
  obtain hbelow | habove : a < m.length ∨ m.length + bs.length ≤ a := by omega
  · exact memRead_memAppend_below m bs a hbelow
  · have hnew : memRead (memAppend m bs) a = none :=
      (memRead_none_iff _ a).mpr (by simpa [memAppend] using habove)
    have hold : memRead m a = none := (memRead_none_iff m a).mpr (by omega)
    exact hnew.trans hold.symm

@[simp] theorem bufAppend_nil (s : State) : bufAppend [] s = s := by
  simp [bufAppend, memAppend]

/-- The frame of an append command's common end: some bytes, none on an error (R203), go at the end of `ENC_BUF`, and
an answer without a result is given. -/
theorem appendOrRaise_eq_answered (r : Except ErrKind (List Byte)) (s : State) :
    ∃ st bs, appendOrRaise r s = answered st (bufAppend bs s) := by
  have hraise (k : ErrKind) : raise k s = answered (.error k) (bufAppend [] s) := by rw [bufAppend_nil]; rfl
  obtain ⟨k, _, heq⟩ | ⟨_, _, _, heq⟩ | ⟨bs, _, _, heq⟩ := appendOrRaise_cases r s
  · exact ⟨_, _, heq.trans (hraise k)⟩
  · exact ⟨_, _, heq.trans (hraise .capacityExceeded)⟩
  · exact ⟨.ok, bs, heq⟩

/-- Settles O22: the next state is `bufAppend` and an answer, so only `ENC_BUF` needs an argument, and there the bytes
begin at `ENC_LEN = |ENC_BUF|`. -/
theorem appendFrame : Obligations.AppendFrame := by
  intro i hi s t hlen h
  obtain ⟨st, bs, heq⟩ := appendOrRaise_eq_answered (appendOf i s) s
  obtain rfl : t = answered st (bufAppend bs s) := (exec_append hi h).trans heq
  refine ⟨Nat.le_add_right _ _, fun a ha => ?_, fun _ => rfl, rfl, rfl, rfl, rfl, rfl, rfl, rfl, rfl, rfl⟩
  have houtside : ¬ (s.encBuf.length ≤ a ∧ a < s.encBuf.length + bs.length) := by
    simpa [hlen] using ha
  exact memRead_memAppend_outside s.encBuf bs a houtside

end Sys2Proof.Machine
end

section
/-! Proofs of the encoding statements: the varints that the decoder accepts and the encoder produces, what the read
commands give for them, the operand ports and the checked conversion, and the command word (spec/30_encoding.md R60 to
R73). -/

namespace Sys2Proof.Machine

/-! ### The varints the decoder accepts -/

/-- `decU32` is its loop begun with nothing read, so the loop's varints are those of R69. -/
theorem decU32_ok_iff (src : Memory) (p v n : Nat) :
    decU32 src p = .ok (v, n) ↔ ∃ bs, bs <+: src.drop p ∧ bs.length = n ∧ UVarint bs v := by
  rw [decU32, decU32Loop_ok_iff src p v n maxGroups 0 0 rfl (by norm_num)]
  refine exists_congr fun bs => ?_
  constructor
  · rintro ⟨hprefix, hlen, hchain, hgroups, hvalue, hrange⟩
    exact ⟨hprefix, by omega, hchain, hgroups, by simp [hvalue], hrange⟩
  · rintro ⟨hprefix, hlen, hvarint⟩
    exact ⟨hprefix, by omega, hvarint.chain, hvarint.groups, by simp [hvarint.value], hvarint.range⟩

/-- `decI32` is its loop begun with nothing read, so the loop's varints are those of R70. -/
theorem decI32_ok_iff (src : Memory) (p : Nat) (v : Int) (n : Nat) :
    decI32 src p = .ok (v, n) ↔ ∃ bs, bs <+: src.drop p ∧ bs.length = n ∧ SVarint bs v := by
  rw [decI32, decI32Loop_ok_iff src p v n maxGroups 0 0 rfl (by norm_num)]
  refine exists_congr fun bs => ?_
  constructor
  · rintro ⟨hprefix, hlen, hchain, hgroups, hvalue, hlow, hhigh⟩
    exact ⟨hprefix, by omega, hchain, hgroups, by simp [hvalue, hlen], hlow, hhigh⟩
  · rintro ⟨hprefix, rfl, hvarint⟩
    exact ⟨hprefix, by omega, hvarint.chain, hvarint.groups, by simp [hvarint.value], hvarint.low, hvarint.high⟩

/-- Settles O29, by the induction over the loop of R121 in `decU32Loop_ok_iff`. -/
theorem unsignedDecoderAcceptsExactlyTheVarints : Obligations.UnsignedDecoderAcceptsExactlyTheVarints :=
  decU32_ok_iff

/-- Settles O30, by the induction over the loop of R124 in `decI32Loop_ok_iff`. -/
theorem signedDecoderAcceptsExactlyTheVarints : Obligations.SignedDecoderAcceptsExactlyTheVarints :=
  decI32_ok_iff

/-- A varint at the offset is read whole, whatever follows it (R73). -/
theorem decU32_of_varint {src : Memory} {p v : Nat} {bs rest : List Byte} (hsrc : src.drop p = bs ++ rest)
    (hvarint : UVarint bs v) : decU32 src p = .ok (v, bs.length) :=
  (decU32_ok_iff src p v bs.length).mpr ⟨bs, ⟨rest, hsrc.symm⟩, rfl, hvarint⟩

theorem decI32_of_varint {src : Memory} {p : Nat} {v : Int} {bs rest : List Byte} (hsrc : src.drop p = bs ++ rest)
    (hvarint : SVarint bs v) : decI32 src p = .ok (v, bs.length) :=
  (decI32_ok_iff src p v bs.length).mpr ⟨bs, ⟨rest, hsrc.symm⟩, rfl, hvarint⟩

/-! ### The varints the encoder produces -/

theorem encU32_varint {v : Nat} (h : v ≤ 2 ^ 32 - 1) : UVarint (encU32 v) v := by
  obtain ⟨hchain, hvalue, hgroups, _, _⟩ := encU32Loop_spec maxGroups v (by decide) (by norm_num [maxGroups]; omega)
  exact ⟨hchain, hgroups, hvalue, h⟩

theorem encI32_varint {v : Int} (hlow : -2 ^ 31 ≤ v) (hhigh : v ≤ 2 ^ 31 - 1) : SVarint (encI32 v) v := by
  obtain ⟨hchain, hvalue, hgroups, _⟩ := encI32Loop_spec maxGroups v (by decide)
    (by norm_num [maxGroups]; omega) (by norm_num [maxGroups]; omega)
  exact ⟨hchain, hgroups, hvalue, hlow, hhigh⟩

/-- Settles O20: five groups hold 35 bits, more than either range needs. -/
theorem encodersProduceVarintsOfTheValue : Obligations.EncodersProduceVarintsOfTheValue :=
  ⟨fun _ h => encU32_varint h, fun _ hlow hhigh => encI32_varint hlow hhigh⟩

/-! ### What the read commands give -/

/-- A read that succeeds on a decoder that has not failed (R123, R126, R153). -/
theorem exec_read_ok {i : Instr} (hi : i ∈ readCommands) {s : State} {n : Nat} {res : Result}
    (hstate : s.decState = .ok) (hread : readOf i s = .ok (n, res)) :
    exec i s = .next (respond .ok res { s with decPos := s.decPos + n }) := by
  simp only [exec_read hi, readOrRaise, hstate, hread]

theorem readU32_ok {src : Memory} {p v n : Nat} (h : decU32 src p = .ok (v, n)) :
    readU32 src p = .ok (n, .word (BitVec.ofNat 32 v)) := by
  simp only [readU32, h]

theorem readI32_ok {src : Memory} {p n : Nat} {v : Int} (h : decI32 src p = .ok (v, n)) :
    readI32 src p = .ok (n, .word (BitVec.ofInt 32 v)) := by
  simp only [readI32, h]

/-- The two's-complement word of `v` is `v mod 2^32` (R126). -/
theorem ofInt_eq_ofNat_emod (v : Int) : BitVec.ofInt 32 v = BitVec.ofNat 32 (v % 2 ^ 32).toNat := by
  apply BitVec.eq_of_toNat_eq
  simp only [BitVec.toNat_ofInt, BitVec.toNat_ofNat]
  omega

/-- DEC.I32 on a decoder that has not failed, where `decI32` gives a value (R126). -/
theorem exec_decI32_ok {s : State} {v : Int} {n : Nat} (hstate : s.decState = .ok)
    (h : decI32 s.decSrc s.decPos = .ok (v, n)) :
    exec .decI32 s = .next (respond .ok (.word (BitVec.ofInt 32 v)) { s with decPos := s.decPos + n }) :=
  exec_read_ok (by decide) hstate (readI32_ok h)

/-- Settles O25, by `decU32_of_varint`. -/
theorem decU32ReadsEveryUnsignedVarint : Obligations.DecU32ReadsEveryUnsignedVarint := by
  intro s bs rest v hstate hsrc hvarint
  exact exec_read_ok (i := .decU32) (by decide) hstate (readU32_ok (decU32_of_varint hsrc hvarint))

/-- Settles O26, by `decI32_of_varint`. -/
theorem decI32ReadsEverySignedVarint : Obligations.DecI32ReadsEverySignedVarint := by
  intro s bs rest v hstate hsrc hvarint
  rw [← ofInt_eq_ofNat_emod]
  exact exec_decI32_ok hstate (decI32_of_varint hsrc hvarint)

/-- Settles O36: the value read lies in the signed range, where the word's signed reading gives it back. -/
theorem signedReadingOfTheWordIsTheValue : Obligations.SignedReadingOfTheWordIsTheValue := by
  intro s t v n hstate h hexec
  cases (exec_decI32_ok hstate h).symm.trans hexec
  obtain ⟨_, _, _, hlow, hhigh⟩ := decI32_bounds h
  have hsigned : (BitVec.ofInt 32 v).toInt = v :=
    BitVec.toInt_ofInt_eq_self (by decide) hlow (Int.lt_of_le_sub_one hhigh)
  exact ⟨congrArg some hsigned, congrArg some (ofInt_eq_ofNat_emod v)⟩

/-! ### The prefixed string -/

theorem utf8Decode_utf8Encode {t : Text} (h : textAdmitted t = true) : utf8Decode (utf8Encode t) = some t :=
  (utf8DecodeLoop_iff _ _ t (Nat.le_refl _)).mpr ⟨h, rfl⟩

/-- The slice of bytes that stand at an offset of the source, after the bytes `pre` and before `rest`. -/
theorem memSlice_of_drop {src : Memory} {p : Nat} {pre bs rest : List Byte}
    (hsrc : src.drop p = pre ++ (bs ++ rest)) :
    memSlice src (p + pre.length) (p + pre.length + bs.length) = bs := by
  rw [memSlice, Nat.add_sub_cancel_left, ← List.drop_drop, hsrc, List.drop_left, List.take_left]

/-- The byte count of a text as a varint and its UTF-8 form are read as that text (R71, R153). -/
theorem readPstr_of_prefixed {src : Memory} {p : Nat} {pre rest : List Byte} {t : Text} (hle : p ≤ src.length)
    (hsrc : src.drop p = pre ++ (utf8Encode t ++ rest)) (hprefix : UVarint pre (utf8Encode t).length)
    (ht : textAdmitted t = true) :
    readPstr src src.length p = .ok (pre.length + (utf8Encode t).length, .text t) := by
  have hfits : ¬ src.length < p + pre.length + (utf8Encode t).length := by
    have hlen := congrArg List.length hsrc
    simp only [List.length_drop, List.length_append] at hlen
    omega
  simp only [readPstr, decU32_of_varint hsrc hprefix, if_neg hfits, memSlice_of_drop hsrc, utf8Decode_utf8Encode ht]

/-- Settles O27: the byte count by `decU32_of_varint`, the text by `utf8Decode_utf8Encode`. -/
theorem decPstrReadsEveryPrefixedString : Obligations.DecPstrReadsEveryPrefixedString := by
  intro s pre rest t hstate hlen hpos hsrc hprefix ht
  rw [hlen] at hpos
  rw [List.append_assoc] at hsrc
  have hread : readOf .decPstr s = .ok (pre.length + (utf8Encode t).length, .text t) := by
    rw [readOf, hlen]
    exact readPstr_of_prefixed hpos hsrc hprefix ((textAdmitted_iff t).mpr ht)
  rw [Nat.add_assoc]
  exact exec_read_ok (by decide) hstate hread

/-! ### The operand ports and the checked conversion -/

/-- What a read command takes in is DEC's: no operand port is read (R63). -/
theorem readOf_ports (i : Instr) (s : State) (p : Ports) : readOf i { s with ports := p } = readOf i s := by
  cases i <;> rfl

theorem exec_readCommand_ports {i : Instr} (hi : i ∈ readCommands) (s : State) (p : Ports) :
    exec i { s with ports := p } = onNext (fun t => { t with ports := p }) (exec i s) := by
  rw [exec_read hi, exec_read hi, readOf_ports, readOrRaise_ports]
  rfl

/-- Settles O6: the append commands by `appendOrRaise_ports` once their own port agrees, DEC.LOAD by its own rule, the
read commands by `exec_readCommand_ports`. -/
theorem onlyTheOwnOperandPortIsRead : Obligations.OnlyTheOwnOperandPortIsRead := by
  intro i s p hnum htext hbytes
  cases i with
  | encU32 =>
    simp only [exec, execEncU32, hnum (by decide), appendOrRaise_ports]
    rfl
  | encI32 =>
    simp only [exec, execEncI32, hnum (by decide), appendOrRaise_ports]
    rfl
  | encPstr =>
    simp only [exec, execEncPstr, htext rfl, appendOrRaise_ports]
    split <;> rfl
  | encView => rfl
  | decLoad =>
    simp only [exec, execDecLoad, hbytes rfl]
    split <;> rfl
  | decU32 | decI32 | decPstr => exact exec_readCommand_ports (by decide) s p

/-- NaN, the infinities and the fractions fail the integrality test, whatever the bounds (R66). -/
theorem checkInt_not_integer {x : NumOperand} (h : ∀ v : Int, x ≠ .finite (v : Rat)) (lo hi : Int) :
    checkInt x lo hi = .error .notAnInteger := by
  cases x with
  | nan | posInf | negInf => rfl
  | finite q =>
    have hden : q.den ≠ 1 := fun hone => by
      obtain ⟨v, rfl⟩ := (den_eq_one_iff q).mp hone
      exact h v rfl
    exact if_pos hden

/-- Settles O13: an integer is left to the range test by `checkInt_int`. -/
theorem checkedConversionIsIntegralityThenRange : Obligations.CheckedConversionIsIntegralityThenRange := by
  refine ⟨fun x lo hi => ⟨fun hne => checkInt_not_integer hne lo hi, ?_, ?_⟩, fun _ => ⟨rfl, rfl⟩⟩
  · rintro v rfl hout
    rw [checkInt_int, if_pos hout]
  · rintro v rfl hlow hhigh
    rw [checkInt_int, if_neg (by omega)]

/-! ### The command word -/

/-- Settles O1, by `decode_ok_iff`: the table lists each command once, with the word that encodes it. -/
theorem opcodeMapIsExactlyTheTable : Obligations.OpcodeMapIsExactlyTheTable := by
  intro w i
  rw [decode_ok_iff]
  constructor
  · rintro rfl
    cases i <;> decide
  · have htable : ∀ x ∈ [(0x10#8, Instr.encU32), (0x11#8, .encI32), (0x12#8, .encPstr), (0x13#8, .encView),
        (0x20#8, .decLoad), (0x21#8, .decU32), (0x22#8, .decI32), (0x23#8, .decPstr)], x.1 = encode x.2 := by decide
    exact htable (w, i)

/-- Settles O2, by `decode_ok_iff`. -/
theorem decodeAndEncodeAgree : Obligations.DecodeAndEncodeAgree :=
  ⟨fun i => (decode_ok_iff (encode i) i).mpr rfl, fun w i => (decode_ok_iff w i).mp⟩

theorem issueWord_command {w : Byte} {i : Instr} (h : decode w = .ok i) (s : State) : issueWord w s = exec i s := by
  simp only [issueWord, h]

theorem issueWord_illegal {w : Byte} {e : DecodeError} (h : decode w = .error e) (s : State) :
    issueWord w s = .next (illegalCommand s) := by
  simp only [issueWord, h]

/-- The opcode table's reading of a word is `decode` on words of eight bits (log entry 10). -/
theorem decodeTableWord_some {nbits w : Nat} {i : Instr} (h : decodeTableWord nbits w = some i) :
    nbits = 8 ∧ w < 2 ^ 8 ∧ decode (BitVec.ofNat 8 w) = .ok i := by
  unfold decodeTableWord at h
  split at h
  case isFalse => cases h
  case isTrue hword =>
    split at h <;> cases h
    exact ⟨hword.1, hword.2, ‹_›⟩

/-- Settles O3: both clauses issue a word, which `issueWord_command` runs as its command. -/
theorem stepRunsTheDecodedCommand : Obligations.StepRunsTheDecodedCommand := by
  constructor
  · intro s w p rest i hact hdec
    rw [step_issue hact, issueWord_command hdec]
  · intro s nbits w i htable
    obtain ⟨rfl, hw, hdec⟩ := decodeTableWord_some htable
    have hact : (s.withFetchWord 8 w).hostInputs = .issue (BitVec.ofNat 8 w) s.ports :: s.hostInputs := by
      rw [State.withFetchWord, Nat.mod_eq_of_lt hw]
    rw [step_issue hact, issueWord_command hdec]
    rfl

/-- The words of the commands lie outside the illegal ranges of R62. -/
theorem encode_range (i : Instr) :
    (0x10 ≤ (encode i).toNat ∧ (encode i).toNat ≤ 0x13) ∨ (0x20 ≤ (encode i).toNat ∧ (encode i).toNat ≤ 0x23) := by
  cases i <;> decide

theorem decode_illegal {w : Byte} (h : w.toNat ≤ 0x0F ∨ (0x14 ≤ w.toNat ∧ w.toNat ≤ 0x1F) ∨ 0x24 ≤ w.toNat) :
    ∃ e, decode w = .error e := by
  cases hdec : decode w with
  | error e => exact ⟨e, rfl⟩
  | ok i =>
    obtain rfl := (decode_ok_iff w i).mp hdec
    have hrange := encode_range i
    omega

/-- Settles O4: a word in the three ranges decodes to no command, so the step is `illegalCommand`. -/
theorem illegalWordChangesOnlyTheResponse : Obligations.IllegalWordChangesOnlyTheResponse := by
  intro s w p rest hact hillegal
  obtain ⟨e, hdec⟩ := decode_illegal hillegal
  rw [step_issue hact, issueWord_illegal hdec]
  rfl

end Sys2Proof.Machine
end

section
/-! Proofs of the encoder statements: what ENC.U32, ENC.I32 and ENC.VIEW answer, and the length laws of the two integer
encodings (spec/40_encoder.md R101 to R106). -/

namespace Sys2Proof.Machine

/-! ### The checked conversion of an integer -/

theorem checkInt_out_of_range {v lo hi : Int} (h : v < lo ∨ hi < v) :
    checkInt (.finite (v : Rat)) lo hi = .error .outOfRange := by
  rw [checkInt_int, if_pos h]

theorem checkInt_in_range {v lo hi : Int} (hlow : lo ≤ v) (hhigh : v ≤ hi) :
    checkInt (.finite (v : Rat)) lo hi = .ok v := by
  rw [checkInt_int, if_neg (by omega)]

/-! ### The bytes of an operand -/

theorem bytesOfU32_error {x : NumOperand} {k : ErrKind} (h : checkU32 x = .error k) : bytesOfU32 x = .error k := by
  simp only [bytesOfU32, h]

theorem bytesOfU32_nat {v : Nat} (h : v ≤ 2 ^ 32 - 1) :
    bytesOfU32 (.finite ((v : Int) : Rat)) = .ok (encU32 v) := by
  have hcheck : checkU32 (.finite ((v : Int) : Rat)) = .ok (v : Int) := checkInt_in_range (by omega) (by omega)
  simp only [bytesOfU32, hcheck, Int.toNat_natCast]

theorem bytesOfI32_error {x : NumOperand} {k : ErrKind} (h : checkI32 x = .error k) : bytesOfI32 x = .error k := by
  simp only [bytesOfI32, h]

theorem bytesOfI32_int {v : Int} (hlow : -2 ^ 31 ≤ v) (hhigh : v ≤ 2 ^ 31 - 1) :
    bytesOfI32 (.finite (v : Rat)) = .ok (encI32 v) := by
  have hcheck : checkI32 (.finite (v : Rat)) = .ok v := checkInt_in_range hlow hhigh
  simp only [bytesOfI32, hcheck]

/-! ### The common end of the append commands, case by case -/

theorem appendOrRaise_error (k : ErrKind) (s : State) : appendOrRaise (.error k) s = answered (.error k) s := rfl

theorem appendOrRaise_over {s : State} {bs : List Byte}
    (h : overCapacity s.cfg.encMaxBytes (s.encLen + bs.length) = true) :
    appendOrRaise (.ok bs) s = answered (.error .capacityExceeded) s :=
  if_pos h

theorem appendOrRaise_fits {s : State} {bs : List Byte}
    (h : overCapacity s.cfg.encMaxBytes (s.encLen + bs.length) = false) :
    appendOrRaise (.ok bs) s = answered .ok (bufAppend bs s) :=
  if_neg (Bool.eq_false_iff.mp h)

/-! ### The three commands -/

theorem exec_encU32 (s : State) : exec .encU32 s = .next (appendOrRaise (bytesOfU32 s.ports.numIn) s) := rfl

theorem exec_encI32 (s : State) : exec .encI32 s = .next (appendOrRaise (bytesOfI32 s.ports.numIn) s) := rfl

theorem exec_encView (s : State) :
    exec .encView s = .next (respond .ok (.bytes (memSlice s.encBuf 0 s.encLen)) s) := rfl

/-- ENC.U32 on an operand that fails the check (R102). -/
theorem exec_encU32_error {s : State} {k : ErrKind} (h : checkU32 s.ports.numIn = .error k) :
    exec .encU32 s = .next (answered (.error k) s) := by
  rw [exec_encU32, bytesOfU32_error h, appendOrRaise_error]

/-- ENC.I32 on an operand that fails the check (R105). -/
theorem exec_encI32_error {s : State} {k : ErrKind} (h : checkI32 s.ports.numIn = .error k) :
    exec .encI32 s = .next (answered (.error k) s) := by
  rw [exec_encI32, bytesOfI32_error h, appendOrRaise_error]

/-- Settles O14: the operand is no integer, an integer out of range, or one in range, whose bytes do not fit or do. -/
theorem encU32FollowsItsRule : Obligations.EncU32FollowsItsRule := by
  refine ⟨(decode_ok_iff _ _).mpr rfl, fun s => ⟨fun hne => ?_, fun v hv hout => ?_, fun v hv hle => ?_⟩⟩
  · exact exec_encU32_error (checkInt_not_integer hne _ _)
  · exact exec_encU32_error (by rw [hv]; exact checkInt_out_of_range hout)
  · rw [exec_encU32, hv, bytesOfU32_nat hle]
    exact ⟨fun hover => congrArg Host.Outcome.next (appendOrRaise_over hover),
      fun hfits => congrArg Host.Outcome.next (appendOrRaise_fits hfits)⟩

/-- Settles O15, with the cases of O14. -/
theorem encI32FollowsItsRule : Obligations.EncI32FollowsItsRule := by
  refine ⟨(decode_ok_iff _ _).mpr rfl, fun s => ⟨fun hne => ?_, fun v hv hout => ?_, fun v hv hlow hhigh => ?_⟩⟩
  · exact exec_encI32_error (checkInt_not_integer hne _ _)
  · exact exec_encI32_error (by rw [hv]; exact checkInt_out_of_range hout)
  · rw [exec_encI32, hv, bytesOfI32_int hlow hhigh]
    exact ⟨fun hover => congrArg Host.Outcome.next (appendOrRaise_over hover),
      fun hfits => congrArg Host.Outcome.next (appendOrRaise_fits hfits)⟩

theorem memSlice_zero (m : Memory) (n : Nat) : memSlice m 0 n = m.take n := by
  rw [memSlice, List.drop_zero, Nat.sub_zero]

/-- Settles O17: the slice presented begins at offset 0 (`memSlice_zero`). -/
theorem encViewPresentsExactlyTheBuffer : Obligations.EncViewPresentsExactlyTheBuffer := by
  refine ⟨(decode_ok_iff _ _).mpr rfl, fun s => ?_⟩
  rw [exec_encView, memSlice_zero]
  rfl

/-! ### What every varint satisfies -/

/-- In a chain exactly the bytes before the last say that more follow (R69). -/
theorem continues_iff_of_chained {bs : List Byte} (h : chained bs = true) {k : Nat} {b : Byte} (hb : bs[k]? = some b) :
    continues b = true ↔ k + 1 < bs.length := by
  induction bs generalizing k with
  | nil => exact absurd rfl (chained_ne_nil h)
  | cons c cs ih =>
    obtain ⟨rfl, hlast⟩ | ⟨hmore, hrest⟩ := (chained_cons c cs).mp h
    · obtain ⟨rfl, rfl⟩ : k = 0 ∧ c = b := by simpa [List.getElem?_singleton] using hb
      simp [hlast]
    · cases k with
      | zero =>
        obtain rfl : c = b := by simpa using hb
        simp [hmore, List.length_pos_iff, chained_ne_nil hrest]
      | succ k => simpa using ih hrest (by simpa using hb)

theorem length_pos_of_chained {bs : List Byte} (h : chained bs = true) : 1 ≤ bs.length :=
  List.length_pos_iff.mpr (chained_ne_nil h)

theorem UVarint.lt_pow {bs : List Byte} {v : Nat} (h : UVarint bs v) : v < 2 ^ (7 * bs.length) :=
  h.value ▸ groupSum_lt bs

/-- An `n`-bit pattern read as two's complement lies in the signed range of `n` bits (R6). -/
theorem sext_bounds {n a : Nat} (hn : 1 ≤ n) (h : a < 2 ^ n) :
    -2 ^ (n - 1) ≤ sext n a ∧ sext n a ≤ 2 ^ (n - 1) - 1 := by
  obtain ⟨m, rfl⟩ : ∃ m, n = m + 1 := ⟨n - 1, by omega⟩
  rw [sext_eq _ _ hn h, Nat.add_sub_cancel]
  zify at h ⊢
  rw [pow_succ] at h ⊢
  split <;> omega

theorem SVarint.bounds {bs : List Byte} {v : Int} (h : SVarint bs v) :
    -2 ^ (7 * bs.length - 1) ≤ v ∧ v ≤ 2 ^ (7 * bs.length - 1) - 1 := by
  have hpos := length_pos_of_chained h.chain
  rw [← h.value]
  exact sext_bounds (by omega) (groupSum_lt bs)

/-! ### The length laws -/

/-- Settles O18: the encoding is a varint of the value, so its groups hold it and its bytes are chained; that it has the
fewest groups and no superfluous zero group is `encU32Loop_spec`. -/
theorem unsignedEncodingObeysTheLengthLaw : Obligations.UnsignedEncodingObeysTheLengthLaw := by
  intro v hv
  have hvarint := encU32_varint hv
  obtain ⟨_, _, _, hfewest, hlast⟩ := encU32Loop_spec maxGroups v (by decide) (by norm_num [maxGroups]; omega)
  exact ⟨length_pos_of_chained hvarint.chain, hvarint.lt_pow, hfewest,
    fun _ _ hb => continues_iff_of_chained hvarint.chain hb, hlast⟩

/-- Settles O19: as O18, with the signed range of the groups. -/
theorem signedEncodingObeysTheLengthLaw : Obligations.SignedEncodingObeysTheLengthLaw := by
  intro v hlow hhigh
  have hvarint := encI32_varint hlow hhigh
  obtain ⟨_, _, _, hfewest⟩ := encI32Loop_spec maxGroups v (by decide)
    (by norm_num [maxGroups]; omega) (by norm_num [maxGroups]; omega)
  obtain ⟨hmin, hmax⟩ := hvarint.bounds
  exact ⟨length_pos_of_chained hvarint.chain, hvarint.groups, hmin, hmax, hfewest⟩

end Sys2Proof.Machine
end

section
/-! Proofs of the decoder statements: what DEC.LOAD, DEC.U32 and DEC.I32 answer, the bytes that an integer read examines,
the signed fifth-byte window, and the round trips of single integers and of whole sequences (spec/41_decoder.md R120 to
R128). -/

namespace Sys2Proof.Machine

/-! ### The round trips of the integers -/

/-- Settles O45: an encoding is a varint of its value, and a varint is read whole whatever follows it. -/
theorem integerRoundTrips : Obligations.IntegerRoundTrips :=
  ⟨fun _ _ h => decU32_of_varint rfl (encU32_varint h),
    fun _ _ hlow hhigh => decI32_of_varint rfl (encI32_varint hlow hhigh)⟩

/-! ### A sequence of appends -/

theorem runSteps_succ {s t : State} (h : step s = .next t) (n : Nat) : runSteps (n + 1) s = runSteps n t := by
  simp only [runSteps, h]

theorem bytesOfText_fits {t : Text} (h : (utf8Encode t).length ≤ maxStringBytes) :
    bytesOfText t = .ok (encU32 (utf8Encode t).length ++ utf8Encode t) :=
  if_neg (Nat.not_lt.mpr h)

theorem exec_encPstr_admitted {s : State} (h : textAdmitted s.ports.textIn = true) :
    exec .encPstr s = .next (appendOrRaise (bytesOfText s.ports.textIn) s) :=
  if_pos h

theorem Item.admitted_u32 (v : Nat) : (Item.u32 v).admitted = true ↔ v ≤ 2 ^ 32 - 1 := decide_eq_true_iff

theorem Item.admitted_i32 (v : Int) : (Item.i32 v).admitted = true ↔ -2 ^ 31 ≤ v ∧ v ≤ 2 ^ 31 - 1 := by
  simp only [Item.admitted, Bool.and_eq_true, decide_eq_true_eq]

theorem Item.admitted_text (t : Text) :
    (Item.text t).admitted = true ↔ textAdmitted t = true ∧ (utf8Encode t).length ≤ maxStringBytes := by
  simp only [Item.admitted, Bool.and_eq_true, decide_eq_true_eq]

/-- An issued word that encodes a command runs it, with the issue's operand ports (R60, R61). -/
theorem step_command {s : State} {w : Byte} {p : Ports} {rest : List HostInput} (i : Instr)
    (hact : s.hostInputs = .issue w p :: rest) (hw : w = encode i) :
    step s = exec i { s with hostInputs := rest, ports := p } :=
  (step_issue hact).trans (issueWord_command ((decode_ok_iff w i).mpr hw) _)

/-- The append of an admitted value is the common end of the append commands with the value's wire form (R102, R105,
R152). -/
theorem step_appendInput {x : Item} (hx : x.admitted = true) {s : State} {rest : List HostInput}
    (hact : s.hostInputs = x.appendInput :: rest) :
    ∃ p, step s = .next (appendOrRaise (.ok x.wire) { s with hostInputs := rest, ports := p }) := by
  cases x with
  | u32 v =>
    have hstep := step_command .encU32 hact rfl
    rw [exec_encU32, bytesOfU32_nat ((Item.admitted_u32 v).mp hx)] at hstep
    exact ⟨_, hstep⟩
  | i32 v =>
    obtain ⟨hlow, hhigh⟩ := (Item.admitted_i32 v).mp hx
    have hstep := step_command .encI32 hact rfl
    rw [exec_encI32, bytesOfI32_int hlow hhigh] at hstep
    exact ⟨_, hstep⟩
  | text t =>
    obtain ⟨ht, hlen⟩ := (Item.admitted_text t).mp hx
    have hstep := step_command .encPstr hact rfl
    rw [exec_encPstr_admitted ht, bytesOfText_fits hlen] at hstep
    exact ⟨_, hstep⟩

/-- The first half of O46, by induction on the values: each append adds its wire form at the end (R21). -/
theorem runSteps_appends {items : List Item} (hitems : ∀ x ∈ items, x.admitted = true) {s : State}
    {rest : List HostInput} (hcap : s.cfg.encMaxBytes = .unbounded)
    (hacts : s.hostInputs = items.map Item.appendInput ++ rest) :
    ∃ t, runSteps items.length s = .next t ∧ t.encBuf = s.encBuf ++ items.flatMap Item.wire ∧
      t.encLen = s.encLen + (items.flatMap Item.wire).length ∧ t.hostInputs = rest ∧
      t.decSrc = s.decSrc ∧ t.decLen = s.decLen ∧ t.decPos = s.decPos ∧ t.decState = s.decState := by
  induction items generalizing s with
  | nil => exact ⟨s, rfl, by simp, rfl, hacts, rfl, rfl, rfl, rfl⟩
  | cons x xs ih =>
    obtain ⟨hx, hxs⟩ := List.forall_mem_cons.mp hitems
    obtain ⟨p, hstep⟩ := step_appendInput hx hacts
    rw [appendOrRaise_fits (by simp [hcap])] at hstep
    obtain ⟨t, hrun, hbuf, hlen, hframe⟩ :=
      ih hxs (s := answered .ok (bufAppend x.wire { s with hostInputs := _, ports := p })) hcap rfl
    refine ⟨t, (runSteps_succ hstep _).trans hrun, ?_, ?_, hframe⟩
    · simp [hbuf]
    · simp [hlen, Nat.add_assoc]

/-! ### A sequence of reads -/

/-- The result that the matching read of a value presents (R64). -/
def Item.result : Item → Result
  | .u32 v => .word (BitVec.ofNat 32 v)
  | .i32 v => .word (BitVec.ofInt 32 v)
  | .text t => .text t

theorem Item.resultWord_result (x : Item) : resultWord x.result = x.word := by cases x <;> rfl

theorem Item.resultText_result (x : Item) : resultText x.result = x.textResult := by cases x <;> rfl

/-- The decoder has not failed, and `bs` are the bytes from the cursor to the end of the source. -/
structure State.Unread (s : State) (bs : List Byte) : Prop where
  state_ok : s.decState = .ok
  decLen_eq : s.decLen = s.decSrc.length
  decPos_le : s.decPos ≤ s.decSrc.length
  bytes : s.decSrc.drop s.decPos = bs

/-- A successful read of the next bytes leaves the bytes after them; the operand ports and the acts to come do not
matter. -/
theorem State.Unread.advance {s : State} {bs tail : List Byte} (h : s.Unread (bs ++ tail)) (res : Result)
    (rest : List HostInput) (p : Ports) :
    (respond .ok res { s with hostInputs := rest, ports := p, decPos := s.decPos + bs.length }).Unread tail where
  state_ok := h.state_ok
  decLen_eq := h.decLen_eq
  decPos_le := by
    have hlen := congrArg List.length h.bytes
    have hle := h.decPos_le
    simp only [List.length_drop, List.length_append] at hlen
    simp only [respond_decSrc, respond_decPos]
    omega
  bytes := by
    simp only [respond_decSrc, respond_decPos]
    rw [← List.drop_drop, h.bytes, List.drop_left]

/-- The matching read of a value whose wire form stands at the cursor (R128, R154). -/
theorem step_readInput {x : Item} (hx : x.admitted = true) {s : State} {rest : List HostInput} {tail : List Byte}
    (hact : s.hostInputs = x.readInput :: rest) (hunread : s.Unread (x.wire ++ tail)) :
    step s = .next (respond .ok x.result
      { s with hostInputs := rest, ports := Ports.idle, decPos := s.decPos + x.wire.length }) := by
  cases x with
  | u32 v =>
    have hread := decU32_of_varint hunread.bytes (encU32_varint ((Item.admitted_u32 v).mp hx))
    rw [step_command .decU32 hact rfl]
    exact exec_read_ok (i := .decU32) (by decide) hunread.state_ok (readU32_ok hread)
  | i32 v =>
    obtain ⟨hlow, hhigh⟩ := (Item.admitted_i32 v).mp hx
    have hread := decI32_of_varint hunread.bytes (encI32_varint hlow hhigh)
    rw [step_command .decI32 hact rfl]
    exact exec_decI32_ok hunread.state_ok hread
  | text t =>
    obtain ⟨ht, hlen⟩ := (Item.admitted_text t).mp hx
    have hbytes := hunread.bytes
    rw [Item.wire, List.append_assoc] at hbytes
    have hread := readPstr_of_prefixed hunread.decPos_le hbytes (encU32_varint hlen) ht
    rw [← hunread.decLen_eq, ← List.length_append] at hread
    rw [step_command .decPstr hact rfl]
    exact exec_read_ok (i := .decPstr) (by decide) hunread.state_ok hread

/-- The reads of the second half of O46, by induction on the values before the one whose read is looked at. -/
theorem runSteps_reads {first : List Item} {x : Item} (hitems : ∀ y ∈ first ++ [x], y.admitted = true) {s : State}
    {rest : List HostInput} {tail : List Byte} (hunread : s.Unread ((first ++ [x]).flatMap Item.wire ++ tail))
    (hacts : s.hostInputs = (first ++ [x]).map Item.readInput ++ rest) :
    ∃ t, runSteps (first.length + 1) s = .next t ∧ t.respStatus = .ok ∧ t.respWord = x.word ∧
      t.respText = x.textResult ∧ t.decPos = s.decPos + ((first ++ [x]).flatMap Item.wire).length ∧
      t.decState = .ok ∧ t.encBuf = s.encBuf ∧ t.encLen = s.encLen := by
  induction first generalizing s with
  | nil =>
    have hstep := step_readInput (hitems x (by simp)) hacts (by simpa using hunread)
    exact ⟨_, runSteps_succ hstep 0, rfl, x.resultWord_result, x.resultText_result, by simp, hunread.state_ok, rfl, rfl⟩
  | cons y ys ih =>
    obtain ⟨hy, hys⟩ := List.forall_mem_cons.mp hitems
    have hnext : s.Unread (y.wire ++ ((ys ++ [x]).flatMap Item.wire ++ tail)) := by simpa using hunread
    have hstep := step_readInput hy hacts hnext
    obtain ⟨t, hrun, hst, hword, htext, hpos, hframe⟩ := ih hys (hnext.advance y.result _ Ports.idle) rfl
    refine ⟨t, (runSteps_succ hstep _).trans hrun, hst, hword, htext, ?_, hframe⟩
    simp [hpos, Nat.add_assoc]

/-! ### DEC.LOAD -/

theorem exec_decLoad_over {s : State} (h : overCapacity s.cfg.decMaxBytes s.ports.bytesIn.length = true) :
    exec .decLoad s = .next (answered (.error .capacityExceeded) s) :=
  if_pos h

theorem exec_decLoad_fits {s : State} (h : overCapacity s.cfg.decMaxBytes s.ports.bytesIn.length = false) :
    exec .decLoad s = .next (answered .ok
      { s with decSrc := s.ports.bytesIn, decLen := s.ports.bytesIn.length, decPos := 0, decState := .ok }) :=
  if_neg (Bool.eq_false_iff.mp h)

/-- Settles O24: the bytes do not fit, or they do. -/
theorem decLoadFollowsItsRule : Obligations.DecLoadFollowsItsRule :=
  ⟨(decode_ok_iff _ _).mpr rfl, fun _ => ⟨exec_decLoad_over, exec_decLoad_fits⟩⟩

/-! ### A sequence appended, loaded and read back -/

/-- The host's DEC.LOAD of bytes for an unbounded decoder leaves all of them to read (R120). -/
theorem step_load {s : State} {bs : List Byte} {rest : List HostInput} (hcap : s.cfg.decMaxBytes = .unbounded)
    (hact : s.hostInputs = .issue 0x20#8 { Ports.idle with bytesIn := bs } :: rest) :
    ∃ t, step s = .next t ∧ t.Unread bs ∧ t.hostInputs = rest ∧ t.decPos = 0 ∧
      t.encBuf = s.encBuf ∧ t.encLen = s.encLen := by
  have hstep := (step_command .decLoad hact rfl).trans (exec_decLoad_fits (by simp [hcap]))
  exact ⟨_, hstep, ⟨rfl, rfl, Nat.zero_le _, rfl⟩, rfl, rfl, rfl, rfl⟩

/-- Settles O46: the appends by `runSteps_appends`; the load leaves the wire forms of all values to read, and the reads go
by `runSteps_reads`. -/
theorem appendedSequenceReadsBackInOrder : Obligations.AppendedSequenceReadsBackInOrder := by
  intro items hitems
  refine ⟨fun s rest hcap hacts => runSteps_appends hitems hcap hacts, ?_⟩
  rintro first x last s rfl hcap hacts
  obtain ⟨u, hload, hunread, hrest, hpos, hbuf, hlen⟩ := step_load hcap hacts
  rw [List.append_cons] at hitems hunread hrest
  rw [List.flatMap_append] at hunread
  rw [List.map_append] at hrest
  have hread := runSteps_reads (fun y hy => hitems y (List.mem_append_left last hy)) hunread hrest
  rw [Nat.add_comm 1, runSteps_succ hload]
  simpa only [hpos, Nat.zero_add, hbuf, hlen] using hread

/-! ### DEC.U32 and DEC.I32 -/

/-- A read command on a failed decoder answers its kind again (R210). -/
theorem exec_read_failed {i : Instr} (hi : i ∈ readCommands) {s : State} {k : ReadErr} (h : s.decState = .failed k) :
    exec i s = .next (answered (.error (readErrKind k)) s) := by
  simp only [exec_read hi, readOrRaise, h]
  rfl

/-- A read that raises on a decoder that has not failed (R204). -/
theorem exec_read_error {i : Instr} (hi : i ∈ readCommands) {s : State} {k : ReadErr} (hstate : s.decState = .ok)
    (hread : readOf i s = .error k) :
    exec i s = .next (answered (.error (readErrKind k)) { s with decState := .failed k }) := by
  simp only [exec_read hi, readOrRaise, hstate, hread]
  rfl

theorem readU32_error {src : Memory} {p : Nat} {k : ReadErr} (h : decU32 src p = .error k) :
    readU32 src p = .error k := by
  simp only [readU32, h]

theorem readI32_error {src : Memory} {p : Nat} {k : ReadErr} (h : decI32 src p = .error k) :
    readI32 src p = .error k := by
  simp only [readI32, h]

/-- Settles O32: the decoder has failed, the read raises, or it gives a value in range. -/
theorem decU32FollowsItsRule : Obligations.DecU32FollowsItsRule := by
  refine ⟨(decode_ok_iff _ _).mpr rfl, fun s =>
    ⟨fun k hfailed => ?_, fun hstate => ⟨fun k herror => ?_, fun v n hok => ?_⟩⟩⟩
  · exact exec_read_failed (by decide) hfailed
  · exact exec_read_error (by decide) hstate (readU32_error herror)
  · obtain ⟨_, _, _, hrange⟩ := decU32_bounds hok
    exact ⟨hrange, exec_read_ok (i := .decU32) (by decide) hstate (readU32_ok hok)⟩

/-- Settles O33: the cases of O32; the signed reading of the word is O36. -/
theorem decI32FollowsItsRule : Obligations.DecI32FollowsItsRule := by
  refine ⟨(decode_ok_iff _ _).mpr rfl, fun s =>
    ⟨fun k hfailed => ?_, fun hstate => ⟨fun k herror => ?_, fun v n hok => ?_⟩⟩⟩
  · exact exec_read_failed (by decide) hfailed
  · exact exec_read_error (by decide) hstate (readI32_error herror)
  · have hexec := exec_decI32_ok hstate hok
    obtain ⟨hsigned, _⟩ := signedReadingOfTheWordIsTheValue s _ v n hstate hok hexec
    rw [← ofInt_eq_ofNat_emod]
    exact ⟨Option.some.inj hsigned, hexec⟩

/-! ### The bytes that an integer read examines -/

/-- The loop of R121 begun at group `i` examines only the bytes of groups `i` to 4. -/
theorem decU32Loop_congr {src src' : Memory} {p q : Nat}
    (h : ∀ j < 5, memRead src (p + j) = memRead src' (q + j)) (fuel i acc : Nat) (hi : fuel + i = 5) :
    decU32Loop src p fuel i acc = decU32Loop src' q fuel i acc := by
  induction fuel generalizing i acc with
  | zero => rfl
  | succ fuel ih => simp only [decU32Loop, h i (by omega), ih (i + 1) _ (by omega)]

/-- The loop of R124 begun at group `i` examines only the bytes of groups `i` to 4. -/
theorem decI32Loop_congr {src src' : Memory} {p q : Nat}
    (h : ∀ j < 5, memRead src (p + j) = memRead src' (q + j)) (fuel i acc : Nat) (hi : fuel + i = 5) :
    decI32Loop src p fuel i acc = decI32Loop src' q fuel i acc := by
  induction fuel generalizing i acc with
  | zero => rfl
  | succ fuel ih => simp only [decI32Loop, h i (by omega), ih (i + 1) _ (by omega)]

theorem memRead_window (src : Memory) (p : Nat) {n j : Nat} (h : j < n) :
    memRead src (p + j) = memRead ((src.drop p).take n) (0 + j) := by
  simp only [memRead, Nat.zero_add, List.getElem?_take_of_lt h, List.getElem?_drop]

/-- Settles O35: both loops read the same five bytes, and `decU32_bounds` and `decI32_bounds` give the rest. -/
theorem integerReadsExamineAtMostFiveBytes : Obligations.IntegerReadsExamineAtMostFiveBytes := by
  intro src p
  have hwindow (j : Nat) (hj : j < 5) := memRead_window src p hj
  exact ⟨decU32Loop_congr hwindow maxGroups 0 0 rfl, decI32Loop_congr hwindow maxGroups 0 0 rfl,
    fun _ _ => decU32_bounds, fun _ _ => decI32_bounds⟩

/-! ### The signed fifth-byte window -/

/-- The five-byte pattern of four groups and a fifth byte is in range exactly when the fifth payload's bits 3 to 6 are
equal (R125): the four groups stay below `2^28`, so the fifth payload decides. -/
theorem sext_fiveBytes_range_iff {bs : List Byte} {b : Byte} (hlen : bs.length = 4) (hlast : continues b = false) :
    (-2 ^ 31 ≤ sext 35 (groupSum (bs ++ [b])) ∧ sext 35 (groupSum (bs ++ [b])) ≤ 2 ^ 31 - 1) ↔
      (b.toNat ≤ 0x07 ∨ 0x78 ≤ b.toNat) := by
  have hfour := groupSum_lt bs
  have hb : b.toNat < 128 := by simpa [continues_eq] using hlast
  have hsum : groupSum (bs ++ [b]) = groupSum bs + b.toNat * 2 ^ 28 := by
    rw [groupSum_append, hlen, payload_eq, Nat.mod_eq_of_lt hb]
  rw [hlen] at hfour
  rw [hsum, sext_eq 35 _ (by decide) (by omega)]
  split <;> omega

/-- The signed decoder's range error where the fifth byte stands after four bytes with C = 1 (R124, R208). -/
theorem decI32_fifthByte_outOfRange {bs rest : List Byte} {b : Byte} (hlen : bs.length = 4)
    (hmore : ∀ c ∈ bs, continues c = true) (hlow : 0x08 ≤ b.toNat) (hhigh : b.toNat ≤ 0x77) :
    decI32 (bs ++ b :: rest) 0 = .error .outOfRange := by
  refine (decI32Loop_outOfRange_iff _ 0 maxGroups 0 0 (by decide) rfl).mpr ⟨?_, b, ?_, by omega⟩
  · simpa [← hlen] using hmore
  · simp [← hlen]

/-- Up to four groups hold at most 28 bits, so their pattern is in the signed range of 28 bits. -/
theorem sext_fourBytes_bounds {bs : List Byte} (hne : bs ≠ []) (hlen : bs.length ≤ 4) :
    -2 ^ 27 ≤ sext (7 * bs.length) (groupSum bs) ∧ sext (7 * bs.length) (groupSum bs) ≤ 2 ^ 27 - 1 := by
  have hpos : 1 ≤ bs.length := List.length_pos_iff.mpr hne
  obtain ⟨hlow, hhigh⟩ := sext_bounds (by omega : 1 ≤ 7 * bs.length) (groupSum_lt bs)
  have hpow : (2 : Int) ^ (7 * bs.length - 1) ≤ 2 ^ 27 := pow_le_pow_right₀ (by decide) (by omega)
  omega

/-- Settles O34: the range rule, the error outside it, and the shorter patterns, each a lemma above. -/
theorem signedFifthByteWindowIsTheRangeRule : Obligations.SignedFifthByteWindowIsTheRangeRule :=
  ⟨fun _ _ _ hlen hmore hlast => ⟨sext_fiveBytes_range_iff hlen hlast, decI32_fifthByte_outOfRange hlen hmore⟩,
    fun _ => sext_fourBytes_bounds⟩

end Sys2Proof.Machine
end

section
/-! Proofs of the string framer statements: UTF-8 decoding inverts encoding, what ENC.PSTR and DEC.PSTR answer, and the
round trip of a prefixed string (spec/42_string_framer.md R150 to R154). -/

namespace Sys2Proof.Machine

/-! ### UTF-8 -/

/-- Settles O43: `utf8Decode` is its loop with fuel for every byte, so `utf8DecodeLoop_iff`, an induction on the fuel
over R150's prefix code, applies. -/
theorem utf8DecodeInvertsEncode : Obligations.Utf8DecodeInvertsEncode := by
  intro bs t
  rw [← textAdmitted_iff]
  exact utf8DecodeLoop_iff bs.length bs t (Nat.le_refl _)

/-- Bytes that encode no list of scalar values are malformed (R151). -/
theorem utf8Decode_eq_none {bs : List Byte}
    (h : ∀ t : Text, (∀ c ∈ t, c ≤ 0xD7FF ∨ (0xE000 ≤ c ∧ c ≤ 0x10FFFF)) → utf8Encode t ≠ bs) :
    utf8Decode bs = none := by
  refine Option.eq_none_iff_forall_ne_some.mpr fun t hsome => ?_
  obtain ⟨ht, hbytes⟩ := (utf8DecodeInvertsEncode bs t).mp hsome
  exact h t ht hbytes

/-! ### The round trip -/

/-- Settles O44: the prefix that ENC.PSTR writes is an unsigned varint of the byte count, so this is O27 at offset 0. -/
theorem prefixedStringRoundTrip : Obligations.PrefixedStringRoundTrip := by
  intro t rest s ht hlen hstate hpos hsrc hdecLen
  have hdrop : s.decSrc.drop s.decPos = encU32 (utf8Encode t).length ++ utf8Encode t ++ rest := by
    rw [hpos, List.drop_zero, hsrc]
  have hexec := decPstrReadsEveryPrefixedString s _ rest t hstate hdecLen (hpos ▸ Nat.zero_le _) hdrop
    (encU32_varint hlen) ht
  rwa [hpos, Nat.zero_add] at hexec

/-! ### ENC.PSTR -/

theorem exec_encPstr_refused {s : State} (h : textAdmitted s.ports.textIn ≠ true) :
    exec .encPstr s = .refused .textOutsideDomain :=
  if_neg h

theorem bytesOfText_outOfRange {t : Text} (h : maxStringBytes < (utf8Encode t).length) :
    bytesOfText t = .error .outOfRange :=
  if_pos h

/-- Settles O16: a text outside the domain is refused; an admitted text is too long, or its prefix and bytes go together
to the append commands' common end, where they fit or do not. -/
theorem encPstrFollowsItsRule : Obligations.EncPstrFollowsItsRule := by
  refine ⟨(decode_ok_iff _ _).mpr rfl, fun s => ⟨fun hout => ?_, fun hin => ?_⟩⟩
  · exact exec_encPstr_refused ((textAdmitted_ne_true_iff _).mpr hout)
  rw [exec_encPstr_admitted ((textAdmitted_iff _).mpr hin)]
  refine ⟨fun hlong => ?_, ?_⟩
  · rw [bytesOfText_outOfRange hlong, appendOrRaise_error]
  · rintro hlen pre rfl
    rw [bytesOfText_fits hlen, Nat.add_assoc, ← List.length_append]
    exact ⟨fun hover => congrArg Host.Outcome.next (appendOrRaise_over hover),
      fun hfits => congrArg Host.Outcome.next (appendOrRaise_fits hfits)⟩

/-! ### DEC.PSTR -/

/-- The text's bytes, as the framer slices them, are the `l` bytes from offset `p`. -/
theorem memSlice_add (m : Memory) (p l : Nat) : memSlice m p (p + l) = (m.drop p).take l := by
  rw [memSlice, Nat.add_sub_cancel_left]

theorem readPstr_prefix_error {src : Memory} {len p : Nat} {k : ReadErr} (h : decU32 src p = .error k) :
    readPstr src len p = .error k := by
  simp only [readPstr, h]

section
variable {src : Memory} {len p l n : Nat} (hprefix : decU32 src p = .ok (l, n))
include hprefix

theorem readPstr_incomplete (h : len < p + n + l) : readPstr src len p = .error .incompleteNumber := by
  simp only [readPstr, hprefix, if_pos h]

theorem readPstr_malformed (hle : p + n + l ≤ len) (h : utf8Decode ((src.drop (p + n)).take l) = none) :
    readPstr src len p = .error .invalidUtf8 := by
  simp only [readPstr, hprefix, if_neg (Nat.not_lt.mpr hle), memSlice_add, h]

theorem readPstr_text {t : Text} (hle : p + n + l ≤ len) (h : utf8Decode ((src.drop (p + n)).take l) = some t) :
    readPstr src len p = .ok (n + l, .text t) := by
  simp only [readPstr, hprefix, if_neg (Nat.not_lt.mpr hle), memSlice_add, h]

end

/-- Settles O28: the decoder has failed, or the prefix raises, or the bytes are too few, malformed, or those of a text,
in R209's order; O43 says which bytes are malformed. -/
theorem decPstrFollowsItsRule : Obligations.DecPstrFollowsItsRule := by
  refine ⟨(decode_ok_iff _ _).mpr rfl, fun s => ⟨fun k hfailed => ?_, fun hstate => ?_⟩⟩
  · exact exec_read_failed (by decide) hfailed
  have hraise {k : ReadErr} (hread : readPstr s.decSrc s.decLen s.decPos = .error k) :
      exec .decPstr s = .next (answered (.error (readErrKind k)) { s with decState := .failed k }) :=
    exec_read_error (by decide) hstate hread
  refine ⟨fun k herror => ?_, fun l n hprefix hfew => ?_, fun l n hprefix hle hno => ?_,
    fun l n hprefix hle t ht hbytes => ?_⟩
  · exact hraise (readPstr_prefix_error herror)
  · exact hraise (readPstr_incomplete hprefix hfew)
  · exact hraise (readPstr_malformed hprefix hle (utf8Decode_eq_none hno))
  · have htext := (utf8DecodeInvertsEncode _ t).mpr ⟨ht, hbytes⟩
    rw [Nat.add_assoc]
    exact exec_read_ok (i := .decPstr) (by decide) hstate (readPstr_text hprefix hle htext)

end Sys2Proof.Machine
end

section
/-! Proofs of the exception statements: the status codes, the errors each command can raise and exactly when an integer
read raises them, what a failed command leaves unchanged, the ways out of `FAILED(K)`, and the idle block
(spec/60_exceptions.md R200 to R218). -/

namespace Sys2Proof.Machine

/-! ### The status codes -/

/-- The statuses in the order of R200's table, each at the index that is its code. -/
def statusTable : List Status :=
  [.ok, .error .notAnInteger, .error .outOfRange, .error .incompleteNumber, .error .invalidUtf8,
    .error .illegalCommand, .error .capacityExceeded]

theorem statusTable_statusCode (a : Status) : statusTable[(statusCode a).toNat]? = some a := by
  cases a with
  | ok => rfl
  | error k => cases k <;> rfl

/-- Settles O12: a status is found in the table at its code, so the code determines it and is an index of the table. -/
theorem statusCodesAreTheTables : Obligations.StatusCodesAreTheTables := by
  refine ⟨rfl, fun a b hcode => ?_, fun a => ?_⟩
  · have hb := statusTable_statusCode b
    rw [← hcode, statusTable_statusCode a] at hb
    exact Option.some.inj hb
  · obtain ⟨hlt, _⟩ := List.getElem?_eq_some_iff.mp (statusTable_statusCode a)
    exact Nat.le_of_lt_succ hlt

/-! ### The errors of an operand and of a read -/

/-- What an append command's operand can raise, before the capacity test (R202). -/
theorem appendOf_error {i : Instr} {s : State} {k : ErrKind} (h : appendOf i s = .error k) :
    (i ∈ [Instr.encU32, .encI32] ∧ (k = .notAnInteger ∨ k = .outOfRange)) ∨ (i = .encPstr ∧ k = .outOfRange) := by
  cases i with
  | encU32 =>
    simp only [appendOf, bytesOfU32] at h
    split at h <;> cases h
    next hcheck => exact .inl ⟨by decide, checkInt_error hcheck⟩
  | encI32 =>
    simp only [appendOf, bytesOfI32] at h
    split at h <;> cases h
    next hcheck => exact .inl ⟨by decide, checkInt_error hcheck⟩
  | encPstr =>
    simp only [appendOf, bytesOfText] at h
    split at h <;> cases h
    exact .inr ⟨rfl, rfl⟩
  | encView | decLoad | decU32 | decI32 | decPstr => cases h

/-- The loop of R121 never examines UTF-8. -/
theorem decU32Loop_ne_invalidUtf8 (src : Memory) (p fuel i acc : Nat) :
    decU32Loop src p fuel i acc ≠ .error .invalidUtf8 := by
  induction fuel generalizing i acc with
  | zero => nofun
  | succ fuel ih =>
    unfold decU32Loop
    split
    · nofun
    · split
      · nofun
      · split
        · exact ih _ _
        · nofun

/-- The loop of R124 never examines UTF-8. -/
theorem decI32Loop_ne_invalidUtf8 (src : Memory) (p fuel i acc : Nat) :
    decI32Loop src p fuel i acc ≠ .error .invalidUtf8 := by
  induction fuel generalizing i acc with
  | zero => nofun
  | succ fuel ih =>
    unfold decI32Loop
    split
    · nofun
    · split
      · nofun
      · split
        · exact ih _ _
        · nofun

/-- What a read raises: only a string read can find its bytes malformed (R202). -/
theorem readOf_error {i : Instr} {s : State} {r : ReadErr} (h : readOf i s = .error r) :
    (i ∈ [Instr.decU32, .decI32] ∧ r ≠ .invalidUtf8) ∨ i = .decPstr := by
  cases i with
  | decU32 =>
    simp only [readOf, readU32] at h
    split at h <;> cases h
    next hread => exact .inl ⟨by decide, fun hr => decU32Loop_ne_invalidUtf8 _ _ _ _ _ (hr ▸ hread)⟩
  | decI32 =>
    simp only [readOf, readI32] at h
    split at h <;> cases h
    next hread => exact .inl ⟨by decide, fun hr => decI32Loop_ne_invalidUtf8 _ _ _ _ _ (hr ▸ hread)⟩
  | decPstr => exact .inr rfl
  | encU32 | encI32 | encPstr | encView | decLoad => cases h

theorem readErrKind_mem {r : ReadErr} (h : r ≠ .invalidUtf8) :
    readErrKind r ∈ [ErrKind.incompleteNumber, .outOfRange] := by
  cases r with
  | invalidUtf8 => exact absurd rfl h
  | outOfRange | incompleteNumber => decide

/-- Settles O31: both decoders are their loops begun at group 0. -/
theorem integerReadErrorsAreExact : Obligations.IntegerReadErrorsAreExact := fun src p =>
  ⟨decU32Loop_incomplete_iff src p maxGroups 0 0 rfl, decI32Loop_incomplete_iff src p maxGroups 0 0 rfl,
    decU32Loop_outOfRange_iff src p maxGroups 0 0 (by decide) rfl,
    decI32Loop_outOfRange_iff src p maxGroups 0 0 (by decide) rfl⟩

/-! ### The errors of a command -/

/-- The cause of each error that a command reports (R202). -/
theorem exec_error_cases {i : Instr} {s t : State} {k : ErrKind} (h : exec i s = .next t)
    (hst : t.respStatus = .error k) :
    (i ∈ appendCommands ∧ appendOf i s = .error k) ∨
    (i ∈ appendCommands ∧ k = .capacityExceeded ∧ ∃ n, overCapacity s.cfg.encMaxBytes n = true) ∨
    (i = .decLoad ∧ k = .capacityExceeded ∧ ∃ n, overCapacity s.cfg.decMaxBytes n = true) ∨
    (i ∈ readCommands ∧ ∃ r, k = readErrKind r ∧ s.decState = .failed r) ∨
    (i ∈ readCommands ∧ ∃ r, k = readErrKind r ∧ s.decState = .ok ∧ readOf i s = .error r) := by
  obtain ⟨_, hi, herror, rfl⟩ | ⟨_, hi, _, hover, rfl⟩ | ⟨_, _, _, _, rfl⟩ | ⟨_, rfl⟩ | ⟨hi, hover, rfl⟩ |
    ⟨_, _, rfl⟩ | ⟨r, hi, hstate, rfl⟩ | ⟨r, hi, hstate, hread, rfl⟩ | ⟨_, _, _, _, _, rfl⟩ := exec_next_cases h
  all_goals cases hst
  · exact .inl ⟨hi, herror⟩
  · exact .inr (.inl ⟨hi, rfl, _, hover⟩)
  · exact .inr (.inr (.inl ⟨hi, rfl, _, hover⟩))
  · exact .inr (.inr (.inr (.inl ⟨hi, r, rfl, hstate⟩)))
  · exact .inr (.inr (.inr (.inr ⟨hi, r, rfl, hstate, hread⟩)))

theorem appendCommands_rows : ∀ i ∈ appendCommands, i ∈ [Instr.encU32, .encI32] ∨ i = .encPstr := by decide

/-- Settles O50, by the cause of the error: an operand, the encoder's or the decoder's bound, a decoder that has failed,
or a read. -/
theorem eachCommandRaisesOnlyItsErrors : Obligations.EachCommandRaisesOnlyItsErrors := by
  refine ⟨fun i s t k h hst => ?_, fun w e s t hdec h => ?_⟩
  · obtain ⟨_, herror⟩ | ⟨hi, rfl, _⟩ | ⟨hi, hk, _⟩ | ⟨hi, r, hk, hstate⟩ | ⟨_, r, rfl, hstate, hread⟩ :=
      exec_error_cases h hst
    · obtain ⟨hi, rfl | rfl⟩ | ⟨hi, rfl⟩ := appendOf_error herror
      · exact .inl ⟨hi, by decide⟩
      · exact .inl ⟨hi, by decide⟩
      · exact .inr (.inl ⟨hi, by decide⟩)
    · obtain hi | hi := appendCommands_rows i hi
      · exact .inl ⟨hi, by decide⟩
      · exact .inr (.inl ⟨hi, by decide⟩)
    · exact .inr (.inr (.inl ⟨hi, hk⟩))
    · exact .inr (.inr (.inr (.inr (.inr ⟨hi, r, hstate, hk⟩))))
    · obtain ⟨hi, hne⟩ | hi := readOf_error hread
      · exact .inr (.inr (.inr (.inl ⟨hi, hstate, readErrKind_mem hne⟩)))
      · exact .inr (.inr (.inr (.inr (.inl ⟨hi, hstate, by cases r <;> decide⟩))))
  · cases (issueWord_illegal hdec s).symm.trans h
    rfl

/-- Settles O51: of the causes of an error only a bound that is exceeded gives this one, and no bound is. -/
theorem unboundedStorageIsNeverExceeded : Obligations.UnboundedStorageIsNeverExceeded := by
  intro i s t henc hdec h hst
  obtain ⟨_, herror⟩ | ⟨_, _, n, hover⟩ | ⟨_, _, n, hover⟩ | ⟨_, r, hk, _⟩ | ⟨_, r, hk, _⟩ := exec_error_cases h hst
  · obtain ⟨_, hk | hk⟩ | ⟨_, hk⟩ := appendOf_error herror <;> cases hk
  · simp [henc] at hover
  · simp [hdec] at hover
  · cases r <;> cases hk
  · cases r <;> cases hk

/-! ### What a failed command leaves unchanged -/

/-- Settles O21, by the common end of the append commands: each of its two errors is only an answer. -/
theorem failedAppendChangesOnlyTheResponse : Obligations.FailedAppendChangesOnlyTheResponse := by
  intro i hi s t h herror
  have ht := exec_append hi h
  obtain ⟨_, _, heq⟩ | ⟨_, _, _, heq⟩ | ⟨_, _, _, heq⟩ := appendOrRaise_cases (appendOf i s) s
  · obtain rfl := ht.trans heq
    exact ⟨rfl, rfl, rfl⟩
  · obtain rfl := ht.trans heq
    exact ⟨rfl, rfl, rfl⟩
  · obtain rfl := ht.trans heq
    exact absurd rfl herror

/-- Settles O37: of the two ends of a read on a decoder that has not failed, only `exec_read_error` reports an error. -/
theorem failedReadRestoresTheCursor : Obligations.FailedReadRestoresTheCursor := by
  intro i hi s t hstate h herror
  cases hread : readOf i s with
  | error k =>
    cases (exec_read_error hi hstate hread).symm.trans h
    exact ⟨k, rfl, rfl⟩
  | ok x =>
    cases (exec_read_ok hi hstate hread).symm.trans h
    exact absurd rfl herror

/-- Settles O38, by `exec_read_failed`. -/
theorem failedDecoderAnswersTheSameKind : Obligations.FailedDecoderAnswersTheSameKind :=
  fun _ hi _ _ hfailed => exec_read_failed hi hfailed

/-! ### The decoder's state -/

/-- `DEC_STATE`: a DEC.LOAD that answers OK sets it to OK, a read changes it only from OK (R204, R210, R211). -/
theorem exec_decState {i : Instr} {s t : State} (h : exec i s = .next t) :
    t.decState = s.decState ∨
    (i = .decLoad ∧ t.respStatus = .ok ∧ t.decState = .ok ∧ t.decPos = 0) ∨
    (i ∈ readCommands ∧ s.decState = .ok) := by
  obtain ⟨_, _, _, rfl⟩ | ⟨_, _, _, _, rfl⟩ | ⟨_, _, _, _, rfl⟩ | ⟨_, rfl⟩ | ⟨_, _, rfl⟩ | ⟨hload, _, rfl⟩ |
    ⟨_, _, _, rfl⟩ | ⟨_, hread, hstate, _, rfl⟩ | ⟨_, _, _, _, _, rfl⟩ := exec_next_cases h
  case inr.inr.inr.inr.inr.inl => exact .inr (.inl ⟨hload, rfl, rfl, rfl⟩)
  case inr.inr.inr.inr.inr.inr.inr.inl => exact .inr (.inr ⟨hread, hstate⟩)
  all_goals exact .inl rfl

/-- The first clause of O39: of the acts of the host, only a decoder reset and a DEC.LOAD that answers OK lead out of
`FAILED(K)`. -/
theorem step_of_failed {s t : State} {k : ReadErr} (hfailed : s.decState = .failed k) (h : step s = .next t) :
    t.decState = .failed k ∨
    (t.decState = .ok ∧ t.decPos = 0 ∧ ∃ rest,
      (∃ p, s.hostInputs = .issue 0x20#8 p :: rest ∧ t.respStatus = .ok) ∨
      s.hostInputs = .reset .rstDec :: rest ∨ s.hostInputs = .reset .rst :: rest) := by
  obtain ⟨_, rfl⟩ | ⟨r, rest, hact, rfl⟩ | ⟨_, _, _, _, rfl⟩ | ⟨_, _, _, _, _, _, rfl⟩ |
    ⟨w, p, rest, i, hact, hdec, hexec⟩ := step_cases h
  · exact .inl hfailed
  · cases r with
    | rstEnc => exact .inl hfailed
    | rstDec => exact .inr ⟨rfl, rfl, rest, .inr (.inl hact)⟩
    | rst => exact .inr ⟨rfl, rfl, rest, .inr (.inr hact)⟩
  · exact .inl hfailed
  · exact .inl hfailed
  · obtain hkept | ⟨rfl, hst, hstate, hpos⟩ | ⟨_, hstate⟩ := exec_decState hexec
    · exact .inl (hkept.trans hfailed)
    · obtain rfl : w = 0x20#8 := (decode_ok_iff w .decLoad).mp hdec
      exact .inr ⟨hstate, hpos, rest, .inl ⟨p, hact, hst⟩⟩
    · cases hstate.symm.trans hfailed

theorem encode_decCommands : ∀ i ∈ decCommands, 0x20 ≤ (encode i).toNat ∧ (encode i).toNat < 0x24 := by decide

/-- The second clause of O39: a word outside the decoder's commands leaves `DEC_STATE`. -/
theorem issueWord_decState {w : Byte} {s t : State} (hw : w.toNat < 0x20 ∨ 0x24 ≤ w.toNat)
    (h : issueWord w s = .next t) : t.decState = s.decState := by
  cases hdec : decode w with
  | error e =>
    cases (issueWord_illegal hdec s).symm.trans h
    rfl
  | ok i =>
    obtain rfl := (decode_ok_iff w i).mp hdec
    have hother : i ∉ decCommands := fun hi => by have hrange := encode_decCommands i hi; omega
    obtain hkept | ⟨rfl, _⟩ | ⟨hread, _⟩ := exec_decState ((issueWord_command hdec s).symm.trans h)
    · exact hkept
    · exact absurd (by decide) hother
    · exact absurd (List.mem_cons_of_mem _ hread) hother

/-- A DEC.LOAD that answers OK leaves a decoder at the start of its source (R120). -/
theorem exec_decLoad_ok {s t : State} (h : exec .decLoad s = .next t) (hst : t.respStatus = .ok) :
    t.decState = .ok ∧ t.decPos = 0 := by
  cases hcap : overCapacity s.cfg.decMaxBytes s.ports.bytesIn.length with
  | true =>
    cases (exec_decLoad_over hcap).symm.trans h
    cases hst
  | false =>
    cases (exec_decLoad_fits hcap).symm.trans h
    exact ⟨rfl, rfl⟩

/-- Settles O39: `FAILED(K)` is kept but for the two ways out, a word of no decoder command keeps `DEC_STATE`, and each
of the ways out leads to OK and offset 0. -/
theorem onlyLoadOrResetLeavesFailure : Obligations.OnlyLoadOrResetLeavesFailure := by
  refine ⟨fun s t k => step_of_failed, fun s t w p rest hact h hw => ?_, fun s t rest h hact => ?_⟩
  · have hkept := issueWord_decState hw ((step_issue hact).symm.trans h)
    exact hkept
  · obtain ⟨p, hload, hst⟩ | hreset | hreset := hact
    · exact exec_decLoad_ok ((step_command .decLoad hload rfl).symm.trans h) hst
    · cases (step_reset hreset).symm.trans h
      exact ⟨rfl, rfl⟩
    · cases (step_reset hreset).symm.trans h
      exact ⟨rfl, rfl⟩

/-! ### The idle block -/

/-- Settles O5, by `step_idle`. -/
theorem idleBlockStaysAsItIs : Obligations.IdleBlockStaysAsItIs := fun _ => step_idle

end Sys2Proof.Machine
end

section
/-! Proof of the reset statement of the decoder: what `rst_dec` and `rst` leave, and the reads on the empty source that
they leave (spec/70_reset_and_hazards.md R230, R232). -/

namespace Sys2Proof.Machine

/-- An integer read with no byte left is incomplete (R121, R124): the empty case of `integerReadErrorsAreExact`. -/
theorem integerReads_at_end {src : Memory} {p : Nat} (h : src.length ≤ p) :
    decU32 src p = .error .incompleteNumber ∧ decI32 src p = .error .incompleteNumber := by
  obtain ⟨hu32, hi32, _⟩ := integerReadErrorsAreExact src p
  have hnoneLeft : (src.drop p).length ≤ 4 ∧ ∀ b ∈ src.drop p, b.getLsbD 7 = true := by
    simp [List.drop_eq_nil_of_le h]
  exact ⟨hu32.mpr hnoneLeft, hi32.mpr hnoneLeft⟩

/-- Every read with no byte left is incomplete; DEC.PSTR in its prefix (R209). -/
theorem readOf_at_end {i : Instr} (hi : i ∈ readCommands) {s : State} (h : s.decSrc.length ≤ s.decPos) :
    readOf i s = .error .incompleteNumber := by
  obtain ⟨hu32, hi32⟩ := integerReads_at_end h
  simp only [readCommands, List.mem_cons, List.not_mem_nil, or_false] at hi
  obtain rfl | rfl | rfl := hi
  · exact readU32_error hu32
  · exact readI32_error hi32
  · exact readPstr_prefix_error hu32

/-- A read of a decoder that has just been reset raises `INCOMPLETE_NUMBER` (R232). -/
theorem exec_read_resetDec {i : Instr} (hi : i ∈ readCommands) (s : State) :
    exec i (resetDec s) =
      .next (answered (.error .incompleteNumber) { resetDec s with decState := .failed .incompleteNumber }) :=
  exec_read_error hi rfl (readOf_at_end hi (Nat.zero_le _))

/-- Settles O10: both inputs end in `resetDec`, `rst` on a state whose encoder it has reset. -/
theorem resetDecoderReadsAsEmpty : Obligations.ResetDecoderReadsAsEmpty := by
  intro s r rest hr hact
  simp only [List.mem_cons, List.not_mem_nil, or_false] at hr
  obtain rfl | rfl := hr
  · exact ⟨_, step_reset hact, rfl, rfl, rfl, rfl, rfl, rfl, rfl, rfl, fun _ => ⟨rfl, rfl⟩,
      fun _ hi => exec_read_resetDec hi _⟩
  · exact ⟨_, step_reset hact, rfl, rfl, rfl, rfl, rfl, rfl, rfl, rfl, nofun,
      fun _ hi => exec_read_resetDec hi _⟩

end Sys2Proof.Machine
end
